-- ==== Sys2Proof/Word.lean ====
section
/-! DEFINITION. The word types of the crypto-delegation core: spec/00_scope.md R10, R11; spec/20_memory.md R39. -/

namespace Sys2Proof

/-- A 32-bit word: a register of the window, a command word, an address (R19, R39, R59). -/
abbrev Word := BitVec 32

/-- A byte of memory (R10). -/
abbrev Byte := BitVec 8

/-- A 64-bit lane of a Keccak state (R11). -/
abbrev Lane := BitVec 64

/-- The 25 real lanes of a Keccak state; lane `x + 5*y` is the one at position `(x, y)` (R12). -/
abbrev Lanes := Vector Lane 25

/-- A 256-bit unsigned integer of the BIGINT unit (R11). -/
abbrev U256 := BitVec 256

end Sys2Proof
end

