-- ==== Sys2Proof/Config.lean ====
section
/-! DEFINITION. What an implementation fixes (the parameters of spec/00_scope.md R8) and the free values
(`draw()` and `draw_bit()`, R15). -/

namespace Sys2Proof

/-- `BACKEND` (R8, R9): the hardware trigger backend or the software simulation backend. -/
inductive Backend where
  | hw
  | sw
deriving DecidableEq, Repr

/-- The `kind` argument of `MemAdmit` (R41). -/
inductive AccessKind where
  | read
  | write
deriving DecidableEq, Repr

/-- One refusal of the platform's `MemAdmit` (R8, R41, D8). DESIGN CHOICE, log 4: the predicate is held as a list
of refusals. `region` refuses every range of its kind that touches the region (a hole in the memory map); `range`
refuses exactly the one range, so that any predicate on ranges can be written as a list. -/
inductive AdmitRule where
  | region (base size : Nat) (kind : AccessKind)
  | range (base size : Nat) (kind : AccessKind)
deriving DecidableEq, Repr

/-- `BIGINT_MASK_LAYOUT` (R8, R60): the bit of `MASK` that stands for each operation and for the carry-in. -/
structure MaskLayout where
  add : Fin 8
  sub : Fin 8
  subneg : Fin 8
  mullo : Fin 8
  mulhi : Fin 8
  eq : Fin 8
  memcpy : Fin 8
  carry : Fin 8
deriving DecidableEq, Repr

/-- The default layout, the table of R60. -/
def MaskLayout.standard : MaskLayout :=
  { add := 0, sub := 1, subneg := 2, mullo := 3, mulhi := 4, eq := 5, carry := 6, memcpy := 7 }

/-- The parameters of R8 that the source does not fix. `memRefusals = []` is the default `MemAdmit`. -/
structure Params where
  /-- `SCRATCH_LANES`, K. -/
  scratchLanes : Nat
  /-- `STATE_ALIGN`, in bytes. -/
  stateAlign : Nat
  /-- `ROM_BOUND`. -/
  romBound : Word
  /-- `SCRATCH_ADDR`. -/
  scratchAddr : Word
  /-- `BLOCK_BASE`. -/
  blockBase : Word
  /-- `MemAdmit`, as the list of what it refuses beyond what R41 makes it refuse. -/
  memRefusals : List AdmitRule
  /-- `BACKEND`. -/
  backend : Backend
  /-- `BIGINT_MASK_LAYOUT`. -/
  maskLayout : MaskLayout
deriving DecidableEq, Repr

/-- The example platform of spec/95_test_vectors.md (its table of parameters), which every vector of the spec uses.
DESIGN CHOICE, log 3: `State.reset` stands on this platform. -/
def Params.sample : Params :=
  { scratchLanes := 6
    stateAlign := 8
    romBound := 0x00010000#32
    scratchAddr := 0x000FFFE0#32
    blockBase := 0x80000000#32
    memRefusals := []
    backend := .hw
    maskLayout := .standard }

/-- The free 64-bit values: `Config.draw n` is the `n`-th value `draw()` gives (R15, D11). Log 5: nothing
constrains it. -/
opaque Config.draw : Nat → BitVec 64

/-- The free bits: `Config.drawBit n` is what `draw_bit()` gives as the `n`-th draw (R15, R118). Log 5. -/
opaque Config.drawBit : Nat → Bool

end Sys2Proof
end

