-- ==== Sys2Proof/Syntax.lean ====
section
/-! DEFINITION. The commands of the core: one constructor for each row of spec/opcode_table.json
(spec/30_encoding.md R64), with the row's free fields. -/

namespace Sys2Proof

/-- `VAR` (R59): the padding variant of the HASH unit. -/
inductive Variant where
  | keccak
  | sha3
deriving DecidableEq, Repr

/-- The seven operations of the BIGINT unit (R60). -/
inductive BigintOp where
  | add
  | sub
  | subneg
  | mullo
  | mulhi
  | eq
  | memcpy
deriving DecidableEq, Repr

/-- The commands. `k` is `STEP` (R61), `v` is `VAR`, `c` is the carry-in bit `C` (R113). -/
inductive Instr where
  | keccakF
  | keccakStep (k : BitVec 10)
  | hashNew (v : Variant)
  | hashUpdate
  | hashFinal
  | hashFinalReset
  | hashDigest (v : Variant)
  | bigintAdd (c : Bool)
  | bigintSub (c : Bool)
  | bigintSubneg (c : Bool)
  | bigintMullo (c : Bool)
  | bigintMulhi (c : Bool)
  | bigintEq (c : Bool)
  | bigintMemcpy (c : Bool)
deriving DecidableEq, Repr

end Sys2Proof
end

