-- ==== Sys2Proof/WellFormed.lean ====
section
/-! DEFINITION. Which commands exist on a platform: the field conditions of spec/30_encoding.md R64. -/

namespace Sys2Proof

/-- The step index is one of the 649 trigger calls (R61). -/
def Instr.stepInRange : Instr → Bool
  | .keccakStep k => k.toNat ≤ 648
  | _ => true

/-- `keccak.step` exists only with the hardware backend (R9, R63). -/
def Instr.inBackend (p : Params) : Instr → Bool
  | .keccakStep _ => p.backend == .hw
  | _ => true

/-- A command of the platform `p`. -/
def Instr.wf (p : Params) (i : Instr) : Bool :=
  i.stepInRange && i.inBackend p

end Sys2Proof
end

