-- ==== Sys2Proof/Decode.lean ====
section
/-! DEFINITION. Decoding a command word, total on every 32-bit word, and the encoder:
spec/30_encoding.md R59 to R65. -/

namespace Sys2Proof

/-- Why a word is `ILLEGAL` (R65). Every reason raises the same fault, `ILLEGAL_COMMAND`. -/
inductive Illegal where
  /-- A nonzero bit of `Z_HI`. -/
  | highBits
  /-- `UNIT` 0x0 or 0x4 to 0xF. -/
  | reservedUnit
  /-- An `OP` value that the unit does not have. -/
  | reservedOp
  /-- A nonzero `ARG` bit that the command does not use. -/
  | unusedArg
  /-- `STEP` 649 to 1023. -/
  | stepRange
  /-- `keccak.step` with `BACKEND = SW`. -/
  | noTriggerPath
  /-- A BIGINT mask with no operation bit. -/
  | noOperation
  /-- A BIGINT mask with two or more operation bits. -/
  | severalOperations
deriving DecidableEq, Repr

/-- The seven operations, in the order of R60's table. -/
def BigintOp.all : List BigintOp :=
  [.add, .sub, .subneg, .mullo, .mulhi, .eq, .memcpy]

/-- The mask bit of an operation (R60). -/
def MaskLayout.bitOf (l : MaskLayout) : BigintOp → Fin 8
  | .add => l.add
  | .sub => l.sub
  | .subneg => l.subneg
  | .mullo => l.mullo
  | .mulhi => l.mulhi
  | .eq => l.eq
  | .memcpy => l.memcpy

/-- One bit for each operation and one for the carry: the eight positions differ (R60). -/
def MaskLayout.wf (l : MaskLayout) : Bool :=
  decide ((l.carry :: BigintOp.all.map l.bitOf).Nodup)

/-- The command of an operation with its carry-in. -/
def BigintOp.instr (op : BigintOp) (c : Bool) : Instr :=
  match op with
  | .add => .bigintAdd c
  | .sub => .bigintSub c
  | .subneg => .bigintSubneg c
  | .mullo => .bigintMullo c
  | .mulhi => .bigintMulhi c
  | .eq => .bigintEq c
  | .memcpy => .bigintMemcpy c

/-- `VAR`: 0 Keccak-256, 1 SHA3-256 (R59). -/
def Variant.ofBit (b : Bool) : Variant :=
  if b then .sha3 else .keccak

/-- The bit of a variant (R59). -/
def Variant.bit : Variant → Bool
  | .keccak => false
  | .sha3 => true

/-- `UNIT`, bits 31:28 (R59). -/
def unitField (w : Word) : BitVec 4 := w.extractLsb' 28 4

/-- `OP`, bits 27:24 (R59). -/
def opField (w : Word) : BitVec 4 := w.extractLsb' 24 4

/-- `Z_HI`, bits 23:10 (R59). -/
def highField (w : Word) : BitVec 14 := w.extractLsb' 10 14

/-- `ARG`, bits 9:0 (R59). -/
def argField (w : Word) : BitVec 10 := w.extractLsb' 0 10

/-- A command without an argument: every `ARG` bit must be 0. -/
def decodePlain (arg : BitVec 10) (i : Instr) : Except Illegal Instr :=
  if arg = 0 then .ok i else .error .unusedArg

/-- A command with `VAR` in bit 0: `ARG` bits 9:1 must be 0. -/
def decodeVariant (arg : BitVec 10) (f : Variant → Instr) : Except Illegal Instr :=
  if arg.extractLsb' 1 9 = 0 then .ok (f (Variant.ofBit (arg.getLsbD 0))) else .error .unusedArg

/-- `keccak.step` (R61, R63). -/
def decodeStep (p : Params) (arg : BitVec 10) : Except Illegal Instr :=
  if arg.toNat ≤ 648 then
    if p.backend = .hw then .ok (.keccakStep arg) else .error .noTriggerPath
  else .error .stepRange

/-- A BIGINT command: `ARG` bits 9:8 must be 0 and exactly one operation bit of the mask is set (R60, R63). -/
def decodeBigint (l : MaskLayout) (arg : BitVec 10) : Except Illegal Instr :=
  if arg.extractLsb' 8 2 = 0 then
    match BigintOp.all.filter (fun op => arg.getLsbD (l.bitOf op).val) with
    | [] => .error .noOperation
    | [op] => .ok (op.instr (arg.getLsbD l.carry.val))
    | _ => .error .severalOperations
  else .error .unusedArg

/-- The decoder (R63). -/
def decode (p : Params) (w : Word) : Except Illegal Instr :=
  if highField w ≠ 0 then .error .highBits
  else
    match (unitField w).toNat, (opField w).toNat with
    | 1, 0 => decodePlain (argField w) .keccakF
    | 1, 1 => decodeStep p (argField w)
    | 1, _ => .error .reservedOp
    | 2, 0 => decodeVariant (argField w) .hashNew
    | 2, 1 => decodePlain (argField w) .hashUpdate
    | 2, 2 => decodePlain (argField w) .hashFinal
    | 2, 3 => decodePlain (argField w) .hashFinalReset
    | 2, 4 => decodeVariant (argField w) .hashDigest
    | 2, _ => .error .reservedOp
    | 3, 0 => decodeBigint p.maskLayout (argField w)
    | 3, _ => .error .reservedOp
    | _, _ => .error .reservedUnit

/-- A command word from its fields (R59). -/
def commandWord (unit op : BitVec 4) (arg : BitVec 10) : Word :=
  unit ++ op ++ 0#14 ++ arg

/-- `ARG` of a BIGINT command: the operation's bit and, where the carry-in is set, the carry bit (R60). -/
def bigintArg (l : MaskLayout) (op : BigintOp) (c : Bool) : BitVec 10 :=
  BitVec.twoPow 10 (l.bitOf op).val ||| (if c then BitVec.twoPow 10 l.carry.val else 0#10)

/-- `ARG` of a command with `VAR` (R59). -/
def variantArg (v : Variant) : BitVec 10 :=
  if v.bit then 1#10 else 0#10

/-- The encoder (R64): the one word of a command. -/
def encode (p : Params) : Instr → Word
  | .keccakF => commandWord 1 0 0
  | .keccakStep k => commandWord 1 1 k
  | .hashNew v => commandWord 2 0 (variantArg v)
  | .hashUpdate => commandWord 2 1 0
  | .hashFinal => commandWord 2 2 0
  | .hashFinalReset => commandWord 2 3 0
  | .hashDigest v => commandWord 2 4 (variantArg v)
  | .bigintAdd c => commandWord 3 0 (bigintArg p.maskLayout .add c)
  | .bigintSub c => commandWord 3 0 (bigintArg p.maskLayout .sub c)
  | .bigintSubneg c => commandWord 3 0 (bigintArg p.maskLayout .subneg c)
  | .bigintMullo c => commandWord 3 0 (bigintArg p.maskLayout .mullo c)
  | .bigintMulhi c => commandWord 3 0 (bigintArg p.maskLayout .mulhi c)
  | .bigintEq c => commandWord 3 0 (bigintArg p.maskLayout .eq c)
  | .bigintMemcpy c => commandWord 3 0 (bigintArg p.maskLayout .memcpy c)

/-- What the decoder reads from a word of the opcode table, numbered as spec/opcode_table.json numbers its bits, on
the example platform. A command is one 32-bit word (R59), so the bits above `nbits` are 0. -/
def decodeTableWord (nbits w : Nat) : Option Instr :=
  match decode Params.sample (BitVec.ofNat 32 (w % 2 ^ nbits)) with
  | .ok i => some i
  | .error _ => none

end Sys2Proof
end

