-- ==== Sys2Proof/Machine/State.lean ====
section
/-! DEFINITION. The state of the core as plain data: spec/10_state.md R17 to R38, with the host's access stream
(R21 to R23) and the parameters (spec/00_scope.md R8). -/

namespace Sys2Proof.Machine

/-- The faults of the block (spec/60_exceptions.md R125). Taking one is a next state (R127). -/
inductive FaultCode where
  | illegalCommand
  | misaligned
  | romWrite
  | scratchBusy
  | operandAlias
  | stepSequence
  | noContext
  | memoryRange
deriving DecidableEq, Repr

/-- `CTX.phase` (R29, R31). -/
inductive Phase where
  | none
  | active
  | finalized
deriving DecidableEq, Repr

/-- A hash context (R29). `lanes` is `L[0..24]`, `scratch` is `S[0..K-1]`. -/
structure HashCtx where
  lanes : Lanes
  scratch : List Lane
  filled : Nat
  variant : Variant
  phase : Phase
deriving DecidableEq, Repr

/-- The micro-step sequence state (R34). -/
structure SeqState where
  active : Bool
  next : BitVec 10
  ptr : Word
  snap : Lanes
  taint : Bool
deriving DecidableEq, Repr

/-- Which registers something has written since reset: `false` is the `⊥` of R13. DESIGN CHOICE, log 1: a register
that holds `⊥` also holds a value, and reading it is no fault. -/
structure Written where
  a : Bool
  b : Bool
  len : Bool
  ret : Bool
  dout : Bool
deriving DecidableEq, Repr

/-- What the host can do between commands (R21, R22, R39, R139). Widths and counts are in bytes. -/
inductive HostAction where
  /-- A write of `value` to the window at an offset. -/
  | windowWrite (offset : Word) (width : Nat) (value : Word)
  /-- A read of the window at an offset. -/
  | windowRead (offset : Word) (width : Nat)
  /-- A store of bytes from an address on. -/
  | memWrite (addr : Word) (data : List Byte)
  /-- A load of `count` bytes from an address on. -/
  | memRead (addr : Word) (count : Nat)
  /-- Reset. -/
  | reset
deriving DecidableEq, Repr

/-- Memory: the bytes that differ from what an unlisted address reads as, addresses strictly rising. -/
abbrev Mem := List Host.Cell

/-- The state of the machine. -/
structure State where
  /-- The parameters (R8); no step changes them (R141). -/
  params : Params
  /-- `A` (R20). -/
  a : Word
  /-- `B` (R20). -/
  b : Word
  /-- `LEN` (R20). -/
  len : Word
  /-- `RET` (R24). -/
  ret : Word
  /-- `DOUT0` to `DOUT7` (R28). -/
  dout : Vector Word 8
  /-- The `⊥` marks (R13, R38). -/
  written : Written
  /-- `STATUS.FAULTED` and `STATUS.FAULT_CODE` (R25, R127; log 10): `none` is 0 and 0. -/
  fault : Option FaultCode
  /-- `FAULT_INFO` (R26). -/
  faultInfo : Word
  /-- `CTX` (R29). -/
  ctx : HashCtx
  /-- The micro-step sequence (R34). -/
  seq : SeqState
  /-- Memory (R39). -/
  mem : Mem
  /-- The host's accesses still to come, the next one first; the model's own field (log 6). -/
  pending : List HostAction
  /-- The bytes the host's last read returned; the model's own field (log 7). -/
  hostData : List Byte
  /-- How many free values have been used; the model's own field (log 5). -/
  draws : Nat
deriving DecidableEq, Repr

/-- Why the machine stops with a fault. None of these is a fault of the block: those are `FaultCode`. -/
inductive Fault where
  /-- Raised by a host memory access that runs past address `2^32 - 1` (R39). Safe: the model stops (log 14). -/
  | hostAddressRange
  /-- Raised by a host store below `ROM_BOUND`, which R40 calls read-only. Safe: the model stops (log 13). -/
  | hostRomWrite
deriving DecidableEq, Repr

/-- Why a step has no meaning. -/
inductive Refusal where
  /-- Raised by an arm of `exec` whose instruction has no meaning yet. Safe: the model stops. -/
  | notModelled (mnemonic : String)
  /-- `HostAccessRefused` (R21, R132): raised by a host access to the window that is not an aligned 32-bit word.
  Safe: the model stops. -/
  | hostAccessRefused
  /-- `IllFormedParameters` (R132): raised by every step on parameters that break a constraint. Safe: the model
  stops. -/
  | illFormedParameters
deriving DecidableEq, Repr

/-- A hash context as it is at reset (R38), with `k` scratch lanes (log 11). -/
def HashCtx.initial (k : Nat) : HashCtx :=
  { lanes := Vector.replicate 25 0
    scratch := List.replicate k 0
    filled := 0
    variant := .keccak
    phase := .none }

/-- The sequence state at reset (R34, R38). -/
def SeqState.initial : SeqState :=
  { active := false, next := 0, ptr := 0, snap := Vector.replicate 25 0, taint := false }

/-- Every register `⊥` (R38). -/
def Written.initial : Written :=
  { a := false, b := false, len := false, ret := false, dout := false }

/-- The machine right after reset (R38, R139). Registers that hold `⊥` have the value 0 (DESIGN CHOICE, log 1), the
parameters are the example platform (DESIGN CHOICE, log 3), memory lists nothing (log 2) and the host has issued
nothing (log 6). -/
def State.reset : State :=
  { params := Params.sample
    a := 0
    b := 0
    len := 0
    ret := 0
    dout := Vector.replicate 8 0
    written := Written.initial
    fault := none
    faultInfo := 0
    ctx := HashCtx.initial Params.sample.scratchLanes
    seq := SeqState.initial
    mem := []
    pending := []
    hostData := []
    draws := 0 }

end Sys2Proof.Machine
end

