-- ==== Sys2Proof/Machine/Ops.lean ====
section
/-! DEFINITION. The named operations over memory, registers and free values; raising a fault
(spec/60_exceptions.md R127) and reset (spec/70_reset_and_hazards.md R139). -/

namespace Sys2Proof.Machine

/-! ### Memory -/

/-- What an unlisted address reads as. The spec leaves memory unspecified at reset (R38); DESIGN CHOICE, log 2. -/
abbrev Mem.unlisted : Byte := 0

/-- The number of addresses (R39). -/
abbrev addressSpace : Nat := 2 ^ 32

/-- The canonical form: addresses strictly rising and below `2^32`, no entry that reads as an unlisted address. -/
abbrev Mem.wf (m : Mem) : Prop :=
  m.Pairwise (fun c d => c.1 < d.1) ∧ ∀ c ∈ m, c.1 < addressSpace ∧ c.2 ≠ Mem.unlisted

/-- The byte at an address. -/
def Mem.byte : Mem → Nat → Byte
  | [], _ => Mem.unlisted
  | (k, v) :: m, x => if x = k then v else Mem.byte m x

/-- Puts a byte in front of memory unless it is what an unlisted address reads as. -/
def Mem.consByte (x : Nat) (v : Byte) (m : Mem) : Mem :=
  if v = Mem.unlisted then m else (x, v) :: m

/-- A write of one byte, which keeps the canonical form. -/
def Mem.setByte : Mem → Nat → Byte → Mem
  | [], x, v => Mem.consByte x v []
  | (k, u) :: m, x, v =>
    if x < k then Mem.consByte x v ((k, u) :: m)
    else if x = k then Mem.consByte x v m
    else (k, u) :: Mem.setByte m x v

/-- `MemReadBytes(addr, n)` (R14): the bytes in address order. -/
def Mem.bytes (m : Mem) (addr : Nat) : Nat → List Byte
  | 0 => []
  | n + 1 => m.byte addr :: Mem.bytes m (addr + 1) n

/-- Writes bytes in address order. -/
def Mem.writeBytes (m : Mem) (addr : Nat) : List Byte → Mem
  | [] => m
  | v :: vs => Mem.writeBytes (m.setByte addr v) (addr + 1) vs

/-- A byte string as an unsigned integer, the first byte least significant (R14, R44). -/
def bytesToNat : List Byte → Nat
  | [] => 0
  | v :: vs => v.toNat + 256 * bytesToNat vs

/-- The `n` bytes of an integer, least significant first (R14, R44). -/
def natToBytes : Nat → Nat → List Byte
  | 0, _ => []
  | n + 1, v => BitVec.ofNat 8 v :: natToBytes n (v / 256)

/-- `MemRead(addr, n)` (R14). -/
def Mem.readNat (m : Mem) (addr n : Nat) : Nat :=
  bytesToNat (m.bytes addr n)

/-- `MemWrite(addr, n, v)` (R14). -/
def Mem.writeNat (m : Mem) (addr n v : Nat) : Mem :=
  m.writeBytes addr (natToBytes n v)

/-- A bigint operand (R46). -/
def Mem.readU256 (m : Mem) (addr : Nat) : U256 :=
  BitVec.ofNat 256 (m.readNat addr 32)

/-- Writes a bigint (R46). -/
def Mem.writeU256 (m : Mem) (addr : Nat) (v : U256) : Mem :=
  m.writeNat addr 32 v.toNat

/-- The lane at an address (R45). -/
def Mem.readLane (m : Mem) (addr : Nat) : Lane :=
  BitVec.ofNat 64 (m.readNat addr 8)

/-- The 25 real lanes of the state buffer at an address (R45). -/
def Mem.readLanes (m : Mem) (addr : Nat) : Lanes :=
  Vector.ofFn fun i => m.readLane (addr + 8 * i.val)

/-- Writes lanes one after the other from an address on (R45). -/
def Mem.writeLanes (m : Mem) (addr : Nat) (ls : List Lane) : Mem :=
  m.writeBytes addr (ls.flatMap fun l => natToBytes 8 l.toNat)

/-! ### Free values -/

/-- `n` draws of 64 bits, the first with number `c` (R15). -/
def drawLanes (c n : Nat) : List Lane :=
  (List.range n).map fun i => Config.draw (c + i)

/-- 25 draws, the first with number `c` (R15). -/
def drawState (c : Nat) : Lanes :=
  Vector.ofFn fun i => Config.draw (c + i.val)

/-- A draw of a cursor, `0 <= filled < 136` (R29, R103; log 12). -/
def drawCursor (c : Nat) : Nat :=
  (Config.draw c).toNat % 136

/-! ### Updates of the state -/

/-- `n` free values have been used (R15). -/
def State.useDraws (s : State) (n : Nat) : State :=
  { s with draws := s.draws + n }

/-- Memory becomes `m`. -/
def State.setMem (s : State) (m : Mem) : State :=
  { s with mem := m }

/-- The hash context becomes `t`. -/
def State.setCtx (s : State) (t : HashCtx) : State :=
  { s with ctx := t }

/-- The sequence state becomes `q`. -/
def State.setSeq (s : State) (q : SeqState) : State :=
  { s with seq := q }

/-- `RET <- zext_32(bit)` (R24, R107). -/
def State.setRet (s : State) (bit : Bool) : State :=
  { s with ret := if bit then 1 else 0, written := { s.written with ret := true } }

/-- `DOUT0..7` take a digest (R28). -/
def State.setDout (s : State) (d : Vector Word 8) : State :=
  { s with dout := d, written := { s.written with dout := true } }

/-- The host writes `A` (R20). -/
def State.setA (s : State) (v : Word) : State :=
  { s with a := v, written := { s.written with a := true } }

/-- The host writes `B` (R20). -/
def State.setB (s : State) (v : Word) : State :=
  { s with b := v, written := { s.written with b := true } }

/-- The host writes `LEN` (R20). -/
def State.setLen (s : State) (v : Word) : State :=
  { s with len := v, written := { s.written with len := true } }

/-- A host read returns bytes (log 7). -/
def State.setHostData (s : State) (d : List Byte) : State :=
  { s with hostData := d }

/-- The host's access stream becomes `l` (log 6). -/
def State.setPending (s : State) (l : List HostAction) : State :=
  { s with pending := l }

/-- The scratch lanes of the hash context become unspecified (R32, R93; log 11). -/
def State.redrawScratch (s : State) : State :=
  (s.setCtx { s.ctx with scratch := drawLanes s.draws s.params.scratchLanes }).useDraws s.params.scratchLanes

/-! ### Raising a fault, and reset -/

/-- `FAULT_CODE` (R125). -/
def faultNumber : FaultCode → BitVec 4
  | .illegalCommand => 1
  | .misaligned => 2
  | .romWrite => 3
  | .scratchBusy => 4
  | .operandAlias => 5
  | .stepSequence => 6
  | .noContext => 7
  | .memoryRange => 8

/-- Raising a fault (R127): `FAULTED`, `FAULT_CODE` and `FAULT_INFO` change and nothing else. There is no handler
and no return (R129): only `State.resetBlock` clears a fault. -/
def State.raise (s : State) (f : FaultCode) (info : Word) : State :=
  { s with fault := some f, faultInfo := info }

/-- Reset of the block (R38, R139): memory, the parameters and the host's own fields are not touched. -/
def State.resetBlock (s : State) : State :=
  { s with
    a := 0
    b := 0
    len := 0
    ret := 0
    dout := Vector.replicate 8 0
    written := Written.initial
    fault := none
    faultInfo := 0
    ctx := HashCtx.initial s.params.scratchLanes
    seq := SeqState.initial }

/-- One condition a command checks (R126): where `fails` holds, the command raises `code` with `info`. -/
structure Check where
  fails : Bool
  code : FaultCode
  info : Word
deriving DecidableEq, Repr

/-- The first condition that fails; a later one is not evaluated (R126). -/
def firstFailure (cs : List Check) : Option Check :=
  cs.find? (·.fails)

/-- A command: the first condition that fails raises its fault; where none fails the command has its effect. Every
check comes before the first write (R15, R126). -/
def guarded (s : State) (cs : List Check) (effect : State) : Host.Outcome State Fault Refusal :=
  match firstFailure cs with
  | some c => .next (s.raise c.code c.info)
  | none => .next effect

end Sys2Proof.Machine
end

