-- ==== Sys2Proof/Machine/Operands.lean ====
section
/-! DEFINITION. The operand forms: which ranges a command may touch, and the conditions each form of operand is
checked for, in the order of spec/60_exceptions.md R126. -/

namespace Sys2Proof.Machine

/-! ### Ranges -/

/-- The ranges `[p, p+n)` and `[q, q+m)` share a byte. -/
def rangesOverlap (p n q m : Nat) : Bool :=
  decide (0 < n) && decide (0 < m) && decide (p < q + m) && decide (q < p + n)

/-- The size of the register window in bytes (R41). -/
abbrev windowSize : Nat := 0x40

/-- The range overlaps the register window (R41). -/
def inWindow (c : Params) (p n : Nat) : Bool :=
  rangesOverlap p n c.blockBase.toNat windowSize

/-- One refusal of the platform applied to a range (log 4). -/
def ruleRefuses (r : AdmitRule) (p n : Nat) (kind : AccessKind) : Bool :=
  match r with
  | .region base size k => decide (k = kind) && rangesOverlap p n base size
  | .range base size k => decide (k = kind) && decide (p = base) && decide (n = size)

/-- `MemAdmit(p, n, kind)` (R41): no wrap, no overlap with the window, and nothing the platform refuses. -/
def memAdmit (c : Params) (p n : Nat) (kind : AccessKind) : Bool :=
  decide (p + n ≤ addressSpace) && !inWindow c p n && !c.memRefusals.any (fun r => ruleRefuses r p n kind)

/-- The constraints on the parameters (R8, R132; the mask layout by R60, log 16). -/
def paramsWf (c : Params) : Bool :=
  decide (c.romBound.toNat % 32 = 0) && decide (c.scratchAddr.toNat % 32 = 0)
    && decide (c.romBound.toNat ≤ c.scratchAddr.toNat) && decide (5 ≤ c.scratchLanes)
    && decide (c.stateAlign = 2 ^ c.stateAlign.log2) && !inWindow c c.scratchAddr.toNat 32
    && c.maskLayout.wf

/-! ### The Keccak state buffer -/

/-- The size in bytes of a state buffer, 25 real lanes and K scratch lanes (R45). -/
def bufferSize (c : Params) : Nat := 8 * (25 + c.scratchLanes)

/-- No micro-step sequence may be in progress (R89, R126 item 2). -/
def sequenceCheck (s : State) (w : Word) : Check :=
  { fails := s.seq.active, code := .stepSequence, info := w }

/-- The checks on the state pointer `A` (R85). -/
def bufferChecks (s : State) : List Check :=
  [ { fails := decide (s.a.toNat % s.params.stateAlign ≠ 0), code := .misaligned, info := s.a },
    { fails := decide (s.a < s.params.romBound), code := .romWrite, info := s.a },
    { fails := !memAdmit s.params s.a.toNat (bufferSize s.params) .read
        || !memAdmit s.params s.a.toNat (bufferSize s.params) .write, code := .memoryRange, info := s.a } ]

/-! ### Hash input -/

/-- An ACTIVE context is needed (R126 item 3). -/
def contextCheck (s : State) (w : Word) : Check :=
  { fails := decide (s.ctx.phase ≠ .active), code := .noContext, info := w }

/-- The check on the `LEN` input bytes at `A` (R102, R105). -/
def inputCheck (s : State) : Check :=
  { fails := decide (0 < s.len.toNat) && !memAdmit s.params s.a.toNat s.len.toNat .read,
    code := .memoryRange, info := s.a }

/-- The `LEN` input bytes at `A` (R102, R105). -/
def inputBytes (s : State) : List Byte :=
  s.mem.bytes s.a.toNat s.len.toNat

/-! ### Bigint operands -/

/-- The copy path is needed: `b` is in ROM (R40, R111). -/
def needsCopy (s : State) : Bool :=
  decide (s.b < s.params.romBound)

/-- The checks of the BIGINT frame (R107). `writes` is false for Eq alone, which does not write `a`. -/
def bigintChecks (s : State) (writes : Bool) (w : Word) : List Check :=
  [ sequenceCheck s w,
    { fails := decide (s.a.toNat % 32 ≠ 0), code := .misaligned, info := s.a },
    { fails := decide (s.b.toNat % 32 ≠ 0), code := .misaligned, info := s.b },
    { fails := decide (s.a < s.params.romBound), code := .romWrite, info := s.a },
    { fails := decide (s.a = s.b), code := .operandAlias, info := s.a },
    { fails := needsCopy s && decide (s.a = s.params.scratchAddr), code := .scratchBusy, info := s.a },
    { fails := !memAdmit s.params s.a.toNat 32 .read || (writes && !memAdmit s.params s.a.toNat 32 .write),
      code := .memoryRange, info := s.a },
    { fails := !memAdmit s.params s.b.toNat 32 .read, code := .memoryRange, info := s.b },
    { fails := needsCopy s && !memAdmit s.params s.params.scratchAddr.toNat 32 .write,
      code := .memoryRange, info := s.params.scratchAddr } ]

/-- Memory after the copy path: the scratch slot holds the bytes of `b` where `b` is in ROM (R107, R111). -/
def copyPath (s : State) : Mem :=
  if needsCopy s then s.mem.writeNat s.params.scratchAddr.toNat 32 (s.mem.readNat s.b.toNat 32) else s.mem

/-- Where the command reads `b`: the scratch slot after the copy path (R107). -/
def sourceAddr (s : State) : Nat :=
  if needsCopy s then s.params.scratchAddr.toNat else s.b.toNat

end Sys2Proof.Machine
end

