-- ==== Sys2Proof/Machine/Flags.lean ====
section
/-! DEFINITION. The results and the returned bit of the seven bigint operations (spec/42_bigint_alu.md R114 to R120),
computed on unbounded integers and narrowed at the end (R11, R124), and the STATUS and SEQ words
(spec/10_state.md R25, R27). -/

namespace Sys2Proof.Machine

/-- Add (R114): the sum and the carry-out. -/
def opAdd (a b : U256) (c : Bool) : U256 × Bool :=
  let sum := a.toNat + b.toNat + c.toNat
  (BitVec.ofNat 256 sum, decide (2 ^ 256 ≤ sum))

/-- The difference `x - y - c` and its borrow-out (R115). -/
def difference (x y : U256) (c : Bool) : U256 × Bool :=
  (BitVec.ofInt 256 ((x.toNat : Int) - y.toNat - c.toNat), decide (x.toNat < y.toNat + c.toNat))

/-- Sub (R115). -/
def opSub (a b : U256) (c : Bool) : U256 × Bool := difference a b c

/-- SubAndNegate (R116). -/
def opSubneg (a b : U256) (c : Bool) : U256 × Bool := difference b a c

/-- MemCpy (R117): `b` plus the carry-in, and the overflow. -/
def opMemcpy (b : U256) (c : Bool) : U256 × Bool :=
  let sum := b.toNat + c.toNat
  (BitVec.ofNat 256 sum, decide (2 ^ 256 ≤ sum))

/-- MulLow (R118): the low half of the product; the bit is the caller's draw. -/
def opMullo (a b : U256) (drawn : Bool) : U256 × Bool :=
  (BitVec.ofNat 256 (a.toNat * b.toNat), drawn)

/-- MulHigh (R119): the high half of the product, and the bit 0. -/
def opMulhi (a b : U256) : U256 × Bool :=
  (BitVec.ofNat 256 (a.toNat * b.toNat / 2 ^ 256), false)

/-- Eq (R120): `a`, which the frame does not write back, and whether the operands are equal. -/
def opEq (a b : U256) : U256 × Bool :=
  (a, decide (a = b))

/-- `HASH_PHASE` (R25, R106). -/
def phaseNumber : Phase → BitVec 2
  | .none => 0
  | .active => 1
  | .finalized => 2

/-- `FAULTED` (R25). -/
def State.faulted (s : State) : Bool := s.fault.isSome

/-- `FAULT_CODE` (R25). -/
def State.faultCode (s : State) : BitVec 4 :=
  match s.fault with
  | none => 0
  | some f => faultNumber f

/-- `HASH_FILLED` (R25, R106): the cursor while the context is ACTIVE, 0 otherwise. -/
def State.hashFilled (s : State) : BitVec 8 :=
  if s.ctx.phase = .active then BitVec.ofNat 8 s.ctx.filled else 0

/-- The STATUS word (R25), its reserved bits 0. DEDUCED, log 9: a view of the state it shows. -/
def State.status (s : State) : Word :=
  0#8 ++ s.hashFilled ++ 0#4 ++ BitVec.ofBool s.seq.active ++ BitVec.ofBool s.ctx.variant.bit
    ++ phaseNumber s.ctx.phase ++ s.faultCode ++ 0#3 ++ BitVec.ofBool s.faulted

/-- The SEQ word (R27). DEDUCED, log 9. -/
def State.seqWord (s : State) : Word :=
  0#22 ++ s.seq.next

end Sys2Proof.Machine
end

