-- ==== Sys2Proof/Machine/Bigint.lean ====
section
/-! DEFINITION. The commands of the BIGINT unit: spec/42_bigint_alu.md R107 to R120. -/

namespace Sys2Proof.Machine

/-- The effect of the frame (R107), once every check has passed: the copy path, both operands read, the result
written unless the operation is Eq, and `RET`. -/
def bigintEffect (s : State) (writes : Bool) (op : U256 → U256 → U256 × Bool) : State :=
  let m := copyPath s
  let r := op (m.readU256 s.a.toNat) (m.readU256 (sourceAddr s))
  (s.setMem (if writes then m.writeU256 s.a.toNat r.1 else m)).setRet r.2

/-- `bigint.add` (R114). -/
def execBigintAdd (c : Bool) (s : State) : Host.Outcome State Fault Refusal :=
  guarded s (bigintChecks s true (encode s.params (.bigintAdd c))) (bigintEffect s true fun x y => opAdd x y c)

/-- `bigint.sub` (R115). -/
def execBigintSub (c : Bool) (s : State) : Host.Outcome State Fault Refusal :=
  guarded s (bigintChecks s true (encode s.params (.bigintSub c))) (bigintEffect s true fun x y => opSub x y c)

/-- `bigint.subneg` (R116). -/
def execBigintSubneg (c : Bool) (s : State) : Host.Outcome State Fault Refusal :=
  guarded s (bigintChecks s true (encode s.params (.bigintSubneg c))) (bigintEffect s true fun x y => opSubneg x y c)

/-- `bigint.mullo` (R118): the returned bit is a draw; `C` is ignored (R113). -/
def execBigintMullo (c : Bool) (s : State) : Host.Outcome State Fault Refusal :=
  guarded s (bigintChecks s true (encode s.params (.bigintMullo c)))
    ((bigintEffect s true fun x y => opMullo x y (Config.drawBit s.draws)).useDraws 1)

/-- `bigint.mulhi` (R119); `C` is ignored (R113). -/
def execBigintMulhi (c : Bool) (s : State) : Host.Outcome State Fault Refusal :=
  guarded s (bigintChecks s true (encode s.params (.bigintMulhi c))) (bigintEffect s true opMulhi)

/-- `bigint.eq` (R120): no write to `a`; `C` is ignored (R113). -/
def execBigintEq (c : Bool) (s : State) : Host.Outcome State Fault Refusal :=
  guarded s (bigintChecks s false (encode s.params (.bigintEq c))) (bigintEffect s false opEq)

/-- `bigint.memcpy` (R117): the old value of `a` is read and not used. -/
def execBigintMemcpy (c : Bool) (s : State) : Host.Outcome State Fault Refusal :=
  guarded s (bigintChecks s true (encode s.params (.bigintMemcpy c))) (bigintEffect s true fun _ y => opMemcpy y c)

end Sys2Proof.Machine
end

