-- ==== Sys2Proof/Machine/KeccakRound.lean ====
section
/-! DEFINITION. The permutation Keccak-f[1600], by the reference definition of spec/40_keccak_round_engine.md
R69 to R74. -/

namespace Sys2Proof.Machine

/-- `rotl(v, n)` for `n < 64` (R12). -/
def rotl (v : Lane) (n : Nat) : Lane :=
  (v <<< n) ||| (v >>> (64 - n))

/-- The lane index of the position `(x, y)` (R12). Arithmetic on `Fin 5` is modulo 5. -/
def laneIdx (x y : Fin 5) : Fin 25 :=
  ⟨x.val + 5 * y.val, by omega⟩

/-- `x` of a position (R12). -/
def posX (q : Fin 25) : Fin 5 :=
  ⟨q.val % 5, by omega⟩

/-- `y` of a position (R12). -/
def posY (q : Fin 25) : Fin 5 :=
  ⟨q.val / 5, by omega⟩

/-- `RHO[x, y]` in lane order (R70). -/
def rhoTable : Vector Nat 25 :=
  #v[0, 1, 62, 28, 27,
     36, 44, 6, 55, 20,
     3, 10, 43, 25, 39,
     41, 45, 15, 21, 8,
     18, 2, 61, 56, 14]

/-- The round constants (R73). -/
def roundConstants : Vector Lane 24 :=
  #v[0x0000000000000001#64, 0x0000000000008082#64, 0x800000000000808A#64, 0x8000000080008000#64,
     0x000000000000808B#64, 0x0000000080000001#64, 0x8000000080008081#64, 0x8000000000008009#64,
     0x000000000000008A#64, 0x0000000000000088#64, 0x0000000080008009#64, 0x000000008000000A#64,
     0x000000008000808B#64, 0x800000000000008B#64, 0x8000000000008089#64, 0x8000000000008003#64,
     0x8000000000008002#64, 0x8000000000000080#64, 0x000000000000800A#64, 0x800000008000000A#64,
     0x8000000080008081#64, 0x8000000000008080#64, 0x0000000080000001#64, 0x8000000080008008#64]

/-- `RC[r]` (R73); there are 24 rounds. -/
def roundConstant (r : Nat) : Lane :=
  roundConstants[r]?.getD 0

/-- The column parities `C[x]` of θ (R69). -/
def columnParity (s : Lanes) : Vector Lane 5 :=
  Vector.ofFn fun x =>
    s[laneIdx x 0] ^^^ s[laneIdx x 1] ^^^ s[laneIdx x 2] ^^^ s[laneIdx x 3] ^^^ s[laneIdx x 4]

/-- `D[x] = C[x-1] ^ rotl(C[x+1], 1)` of θ (R69); `x - 1` is `x + 4` modulo 5. -/
def thetaMix (par : Vector Lane 5) : Vector Lane 5 :=
  Vector.ofFn fun x => par[x + 4] ^^^ rotl par[x + 1] 1

/-- θ (R69). -/
def theta (s : Lanes) : Lanes :=
  let d := thetaMix (columnParity s)
  Vector.ofFn fun q => s[q] ^^^ d[posX q]

/-- ρ (R70). -/
def rho (s : Lanes) : Lanes :=
  Vector.ofFn fun q => rotl s[q] rhoTable[q]

/-- Where π sends a position: `(x, y)` to `(y, 2x + 3y)` (R71). -/
def piPos (q : Fin 25) : Fin 25 :=
  laneIdx (posY q) (2 * posX q + 3 * posY q)

/-- Where the lane at a position came from: `pi_inv(x', y') = (x' + 3y', x')` (R71). -/
def piInv (q : Fin 25) : Fin 25 :=
  laneIdx (posX q + 3 * posY q) (posX q)

/-- π (R71). -/
def piStep (s : Lanes) : Lanes :=
  Vector.ofFn fun q => s[piInv q]

/-- χ (R72). -/
def chi (s : Lanes) : Lanes :=
  Vector.ofFn fun q =>
    s[q] ^^^ (~~~s[laneIdx (posX q + 1) (posY q)] &&& s[laneIdx (posX q + 2) (posY q)])

/-- ι of round `r` (R73). -/
def iota (r : Nat) (s : Lanes) : Lanes :=
  s.set 0 (s[0] ^^^ roundConstant r)

/-- Round `r` (R74). -/
def keccakRound (r : Nat) (s : Lanes) : Lanes :=
  iota r (chi (piStep (rho (theta s))))

/-- The state after rounds `0 .. n-1` (R74). -/
def keccakRounds (s : Lanes) : Nat → Lanes
  | 0 => s
  | n + 1 => keccakRound n (keccakRounds s n)

/-- `KeccakF` (R74). Irreducible, so that no proof unfolds 24 rounds by accident. -/
@[irreducible] def keccakF (s : Lanes) : Lanes :=
  keccakRounds s 24

end Sys2Proof.Machine
end

