-- ==== Sys2Proof/Machine/Sponge.lean ====
section
/-! DEFINITION. The absorber, padder and squeezer of the HASH unit: spec/41_streaming_hash.md R92 to R99. -/

namespace Sys2Proof.Machine

/-- The absorption rate in bytes, `RATE` (R8). -/
abbrev rate : Nat := 136

/-- XORs a value into a lane. -/
def xorLane (ls : Lanes) (i : Nat) (v : Lane) : Lanes :=
  ls.setIfInBounds i ((ls[i]?.getD 0) ^^^ v)

/-- `XorByte(T, pos, v)` (R92). -/
def xorByte (t : HashCtx) (pos : Nat) (v : Byte) : HashCtx :=
  { t with lanes := xorLane t.lanes (pos / 8) (v.setWidth 64 <<< (8 * (pos % 8))) }

/-- XORs a 32-bit word at a cursor that is a multiple of 4 (R47, R95). -/
def xorWord (t : HashCtx) (pos : Nat) (v : BitVec 32) : HashCtx :=
  { t with lanes := xorLane t.lanes (pos / 8) (v.setWidth 64 <<< (8 * (pos % 8))) }

/-- `Permute(T)` on the real lanes (R93). What it leaves in the scratch lanes is `State.redrawScratch`. -/
def permute (t : HashCtx) : HashCtx :=
  { t with lanes := keccakF t.lanes }

/-- A cursor that has reached 136 triggers the permutation and returns to 0 (R94). -/
def trigger (t : HashCtx) : HashCtx :=
  if t.filled = rate then { permute t with filled := 0 } else t

/-- One byte at the cursor, which advances (R95 phases 1 and 3). -/
def putByte (t : HashCtx) (v : Byte) : HashCtx :=
  { xorByte t t.filled v with filled := t.filled + 1 }

/-- The little-endian word of four bytes (R95). -/
def wordOfBytes (b0 b1 b2 b3 : Byte) : BitVec 32 :=
  b3 ++ b2 ++ b1 ++ b0

/-- One word at the cursor, which advances (R95 phase 2). -/
def putWord (t : HashCtx) (v : BitVec 32) : HashCtx :=
  { xorWord t t.filled v with filled := t.filled + 4 }

/-- Phase 1 of `Absorb` (R95): bytes until the cursor is a multiple of 4 or the input is exhausted. Gives the
context and the input that is left. -/
def absorbHead (t : HashCtx) : List Byte → HashCtx × List Byte
  | [] => (t, [])
  | v :: vs => if t.filled % 4 = 0 then (t, v :: vs) else absorbHead (putByte t v) vs

/-- Phase 2 of `Absorb` (R95): words while four bytes are left. -/
def absorbWords (t : HashCtx) : List Byte → HashCtx × List Byte
  | b0 :: b1 :: b2 :: b3 :: vs => absorbWords (trigger (putWord t (wordOfBytes b0 b1 b2 b3))) vs
  | vs => (t, vs)

/-- Phase 3 of `Absorb` (R95): the last bytes, fewer than four. -/
def absorbTail (t : HashCtx) (vs : List Byte) : HashCtx :=
  vs.foldl putByte t

/-- `Absorb(T, data)` (R95). -/
def absorb (t : HashCtx) (data : List Byte) : HashCtx :=
  let h := absorbHead t data
  let w := absorbWords (trigger h.1) h.2
  absorbTail w.1 w.2

/-- The number of permutations in one `Absorb` of `n` bytes (R97). -/
def permutations (t : HashCtx) (n : Nat) : Nat :=
  (t.filled + n) / rate

/-- The padding byte of a variant (R98). -/
def paddingByte : Variant → Byte
  | .keccak => 0x01
  | .sha3 => 0x06

/-- The domain bit (R98). -/
def domainBit : Lane := 0x8000000000000000

/-- The padding of R98, before the final permutation. -/
def pad (t : HashCtx) : HashCtx :=
  let u := xorByte t t.filled (paddingByte t.variant)
  { u with lanes := xorLane u.lanes 16 domainBit }

/-- The digest bytes of the first four lanes (R98). -/
def squeeze (ls : Lanes) : Vector Byte 32 :=
  Vector.ofFn fun j => ((ls[j.val / 8]?.getD 0) >>> (8 * (j.val % 8))).setWidth 8

/-- `PadAndSqueeze(T)` (R98): the digest. -/
def padAndSqueeze (t : HashCtx) : Vector Byte 32 :=
  squeeze (permute (pad t)).lanes

/-- `DOUT0..7` of a digest (R28). Irreducible, so that comparing two states does not evaluate digests. -/
@[irreducible] def digestWords (d : Vector Byte 32) : Vector Word 8 :=
  Vector.ofFn fun j => wordOfBytes d[4 * j.val] d[4 * j.val + 1] d[4 * j.val + 2] d[4 * j.val + 3]

/-- A fresh context of a variant (R101, R105), keeping the scratch lanes of `t`. -/
def freshCtx (t : HashCtx) (v : Variant) : HashCtx :=
  { t with lanes := Vector.replicate 25 0, filled := 0, variant := v, phase := .active }

end Sys2Proof.Machine
end

