-- ==== Sys2Proof/Machine/Hash.lean ====
section
/-! DEFINITION. The commands of the HASH unit: spec/41_streaming_hash.md R101 to R106. The fields of STATUS that R106
names are a view of `ctx` (`State.status`). -/

namespace Sys2Proof.Machine

/-- `hash.new VAR` (R101). -/
def execHashNew (v : Variant) (s : State) : Host.Outcome State Fault Refusal :=
  guarded s [sequenceCheck s (encode s.params (.hashNew v))] (s.setCtx (freshCtx s.ctx v))

/-- The effect of `hash.update` (R102): absorb the input; the scratch lanes change only if a permutation ran (R93). -/
def updateEffect (s : State) : State :=
  let t := s.setCtx (absorb s.ctx (inputBytes s))
  if permutations s.ctx s.len.toNat = 0 then t else t.redrawScratch

/-- `hash.update` (R102). -/
def execHashUpdate (s : State) : Host.Outcome State Fault Refusal :=
  let w := encode s.params .hashUpdate
  guarded s [sequenceCheck s w, contextCheck s w, inputCheck s] (updateEffect s)

/-- The checks of `hash.final` and `hash.final_reset` (R103, R104). -/
def finalChecks (s : State) (w : Word) : List Check :=
  [sequenceCheck s w, contextCheck s w]

/-- The effect of `hash.final` (R103): the digest, and a FINALIZED context whose lanes and cursor are unspecified
(log 12). -/
def finalEffect (s : State) : State :=
  let t := (s.setDout (digestWords (padAndSqueeze s.ctx))).redrawScratch
  (t.setCtx { t.ctx with phase := .finalized, lanes := drawState t.draws, filled := drawCursor (t.draws + 25) }).useDraws
    26

/-- `hash.final` (R103). -/
def execHashFinal (s : State) : Host.Outcome State Fault Refusal :=
  guarded s (finalChecks s (encode s.params .hashFinal)) (finalEffect s)

/-- The effect of `hash.final_reset` (R104): the digest, and the initial state of the same variant. -/
def finalResetEffect (s : State) : State :=
  let t := (s.setDout (digestWords (padAndSqueeze s.ctx))).redrawScratch
  t.setCtx (freshCtx t.ctx s.ctx.variant)

/-- `hash.final_reset` (R104). -/
def execHashFinalReset (s : State) : Host.Outcome State Fault Refusal :=
  guarded s (finalChecks s (encode s.params .hashFinalReset)) (finalResetEffect s)

/-- `hash.digest VAR` (R105): a context of its own, with no scratch lanes to observe; `ctx` is not read or written. -/
def execHashDigest (v : Variant) (s : State) : Host.Outcome State Fault Refusal :=
  guarded s [sequenceCheck s (encode s.params (.hashDigest v)), inputCheck s]
    (s.setDout (digestWords (padAndSqueeze (absorb (freshCtx (HashCtx.initial 0) v) (inputBytes s)))))

end Sys2Proof.Machine
end

