-- ==== Sys2Proof/Machine/Keccak.lean ====
section
/-! DEFINITION. The commands of the KECCAK unit: spec/40_keccak_round_engine.md R85 to R89. -/

namespace Sys2Proof.Machine

/-- The checks of `keccak.f` and of `keccak.step 0` (R85, R86): no sequence in progress, then the state pointer. -/
def keccakChecks (s : State) (w : Word) : List Check :=
  sequenceCheck s w :: bufferChecks s

/-- The 25 real lanes become `r` and the scratch lanes become draws (R85, R86). -/
def writeResult (s : State) (r : Lanes) : State :=
  (s.setMem (s.mem.writeLanes s.a.toNat (r.toList ++ drawLanes s.draws s.params.scratchLanes))).useDraws
    s.params.scratchLanes

/-- Every lane of the buffer becomes a draw (R86, R88). -/
def scrambleBuffer (s : State) : State :=
  (s.setMem (s.mem.writeLanes s.a.toNat (drawLanes s.draws (25 + s.params.scratchLanes)))).useDraws
    (25 + s.params.scratchLanes)

/-- `keccak.f` (R85). -/
def execKeccakF (s : State) : Host.Outcome State Fault Refusal :=
  guarded s (keccakChecks s (encode s.params .keccakF))
    (writeResult s (keccakF (s.mem.readLanes s.a.toNat)))

/-- The last micro-step (R61). -/
abbrev finalStep : BitVec 10 := 648

/-- The effect of `keccak.step 0` (R86): the snapshot, and the buffer scrambled. -/
def startSequence (s : State) : State :=
  scrambleBuffer
    (s.setSeq
      { active := true
        next := 1
        ptr := s.a
        snap := s.mem.readLanes s.a.toNat
        taint := false })

/-- The checks of `keccak.step k` for `k >= 1` (R86, R126 item 2). -/
def stepChecks (s : State) (k : BitVec 10) (w : Word) : List Check :=
  [ { fails := !s.seq.active || decide (k ≠ s.seq.next), code := .stepSequence, info := w },
    { fails := decide (s.a ≠ s.seq.ptr), code := .stepSequence, info := w } ]

/-- The effect of `keccak.step k` for `1 <= k <= 647` (R86). -/
def continueSequence (s : State) (k : BitVec 10) : State :=
  scrambleBuffer (s.setSeq { s.seq with next := k + 1 })

/-- The effect of `keccak.step 648` (R86): the permutation of the snapshot, or 25 draws if the buffer was tainted. -/
def finishSequence (s : State) : State :=
  let q := { s.seq with active := false, next := 0, taint := false }
  if s.seq.taint then writeResult ((s.setSeq q).useDraws 25) (drawState s.draws)
  else writeResult (s.setSeq q) (keccakF s.seq.snap)

/-- `keccak.step k` (R86). -/
def execKeccakStep (k : BitVec 10) (s : State) : Host.Outcome State Fault Refusal :=
  if k = 0 then guarded s (keccakChecks s (encode s.params (.keccakStep k))) (startSequence s)
  else
    guarded s (stepChecks s k (encode s.params (.keccakStep k)))
      (if k < finalStep then continueSequence s k else finishSequence s)

end Sys2Proof.Machine
end

