-- ==== Sys2Proof/Machine/Dispatch.lean ====
section
/-! DEFINITION. One command of the core: each constructor's meaning. -/

namespace Sys2Proof.Machine

def exec (i : Instr) (s : State) : Host.Outcome State Fault Refusal :=
  match i with
  | .keccakF => Sys2Proof.Machine.execKeccakF s
  | .keccakStep k => Sys2Proof.Machine.execKeccakStep k s
  | .hashNew v => Sys2Proof.Machine.execHashNew v s
  | .hashUpdate => Sys2Proof.Machine.execHashUpdate s
  | .hashFinal => Sys2Proof.Machine.execHashFinal s
  | .hashFinalReset => Sys2Proof.Machine.execHashFinalReset s
  | .hashDigest v => Sys2Proof.Machine.execHashDigest v s
  | .bigintAdd c => Sys2Proof.Machine.execBigintAdd c s
  | .bigintSub c => Sys2Proof.Machine.execBigintSub c s
  | .bigintSubneg c => Sys2Proof.Machine.execBigintSubneg c s
  | .bigintMullo c => Sys2Proof.Machine.execBigintMullo c s
  | .bigintMulhi c => Sys2Proof.Machine.execBigintMulhi c s
  | .bigintEq c => Sys2Proof.Machine.execBigintEq c s
  | .bigintMemcpy c => Sys2Proof.Machine.execBigintMemcpy c s

end Sys2Proof.Machine
end

