-- ==== Sys2Proof/Machine/Host.lean ====
section
/-! DEFINITION. The host's accesses: the register window (spec/10_state.md R19 to R28), memory
(spec/20_memory.md R51, R58) and reset (spec/70_reset_and_hazards.md R139); and the step that takes the next one. -/

namespace Sys2Proof.Machine

/-- A host write of `w` to `CMD` (R22): ignored while the block is faulted (R128); an illegal word raises
`ILLEGAL_COMMAND` with the word (R63, R65); any other runs its command to completion. -/
def issueCommand (w : Word) (s : State) : Host.Outcome State Fault Refusal :=
  if s.faulted then .next s
  else
    match decode s.params w with
    | .error _ => .next (s.raise .illegalCommand w)
    | .ok i => exec i s

/-- A host write of a word at an offset of the window (R19, R20, R21, R22). A write to a read-only register or a
reserved offset is ignored. -/
def windowStore (offset v : Word) (s : State) : Host.Outcome State Fault Refusal :=
  match offset.toNat with
  | 0x00 => issueCommand v s
  | 0x04 => .next (s.setA v)
  | 0x08 => .next (s.setB v)
  | 0x0C => .next (s.setLen v)
  | _ => .next s

/-- What a host read of a word at an offset of the window returns (R19, R21). -/
def windowLoad (offset : Word) (s : State) : Word :=
  match offset.toNat with
  | 0x00 => 0
  | 0x04 => s.a
  | 0x08 => s.b
  | 0x0C => s.len
  | 0x10 => s.ret
  | 0x14 => s.status
  | 0x18 => s.faultInfo
  | 0x1C => s.seqWord
  | n => if 0x20 ≤ n ∧ n % 4 = 0 then s.dout[(n - 0x20) / 4]?.getD 0 else 0

/-- Only naturally aligned 32-bit accesses to the window are defined (R21). -/
def windowAccessOk (offset : Word) (width : Nat) : Bool :=
  decide (width = 4) && decide (offset.toNat % 4 = 0)

/-- A host write to the window; one of another width or alignment is refused (R21, R132). -/
def windowWrite (offset : Word) (width : Nat) (v : Word) (s : State) : Host.Outcome State Fault Refusal :=
  if windowAccessOk offset width then windowStore offset v s else .refused .hostAccessRefused

/-- A host read of the window; the host gets the four bytes of the register (log 7). -/
def windowRead (offset : Word) (width : Nat) (s : State) : Host.Outcome State Fault Refusal :=
  if windowAccessOk offset width then .next (s.setHostData (natToBytes 4 (windowLoad offset s).toNat))
  else .refused .hostAccessRefused

/-- The address lies below the end of the address space together with the `n` bytes from it on. -/
def addressesExist (p n : Nat) : Bool :=
  decide (p + n ≤ addressSpace)

/-- A host write to a byte of the buffer of an active sequence taints it (R58). -/
def taintBy (s : State) (p n : Nat) : State :=
  s.setSeq
    { s.seq with
      taint := s.seq.taint || (s.seq.active && rangesOverlap p n s.seq.ptr.toNat (bufferSize s.params)) }

/-- A host store. A store that touches the window is an access to the window (log 15); one past the end of memory or
below `ROM_BOUND` stops the model (logs 14, 13). -/
def hostStore (addr : Word) (data : List Byte) (s : State) : Host.Outcome State Fault Refusal :=
  if inWindow s.params addr.toNat data.length then
    windowWrite (addr - s.params.blockBase) data.length (BitVec.ofNat 32 (bytesToNat data)) s
  else if !addressesExist addr.toNat data.length then .fault .hostAddressRange
  else if decide (0 < data.length) && decide (addr < s.params.romBound) then .fault .hostRomWrite
  else .next ((taintBy s addr.toNat data.length).setMem (s.mem.writeBytes addr.toNat data))

/-- A host load. A load that touches the window is an access to the window (log 15). -/
def hostLoad (addr : Word) (count : Nat) (s : State) : Host.Outcome State Fault Refusal :=
  if inWindow s.params addr.toNat count then windowRead (addr - s.params.blockBase) count s
  else if !addressesExist addr.toNat count then .fault .hostAddressRange
  else .next (s.setHostData (s.mem.bytes addr.toNat count))

/-- One host access. -/
def hostAccess (act : HostAction) (s : State) : Host.Outcome State Fault Refusal :=
  match act with
  | .windowWrite offset width v => windowWrite offset width v s
  | .windowRead offset width => windowRead offset width s
  | .memWrite addr data => hostStore addr data s
  | .memRead addr count => hostLoad addr count s
  | .reset => .next s.resetBlock

/-- One step of the machine: the host's next access; with none to come the block is idle and keeps its state (R138).
Ill-formed parameters are refused (R132, R141). -/
def hostStep (s : State) : Host.Outcome State Fault Refusal :=
  if paramsWf s.params then
    match s.pending with
    | [] => .next s
    | act :: rest => hostAccess act (s.setPending rest)
  else .refused .illFormedParameters

/-- The command word `w` as the host's next access (R22). -/
def withCommand (s : State) (w : Word) : State :=
  s.setPending (.windowWrite 0 4 w :: s.pending)

end Sys2Proof.Machine
end

