-- ==== Sys2Proof/Machine/Step.lean ====
section
/-! DEFINITION. One step of the machine, and the state whose next step runs a given command word. -/

namespace Sys2Proof.Machine

/-- One step (R17, R22, R23): the host's next access. -/
def step (s : State) : Host.Outcome State Fault Refusal :=
  hostStep s

/-- `s` with the host about to write the command word to `CMD` (log 6). The bits above `nbits` are 0. -/
def State.withFetchWord (s : State) (nbits w : Nat) : State :=
  withCommand s (BitVec.ofNat 32 (w % 2 ^ nbits))

end Sys2Proof.Machine
end

