-- ==== Sys2Proof/Machine/KeccakCircuit.lean ====
section
/-! DEFINITION. The circuit-shaped round algorithm of the software backend, with its lane-position and rotation
tables: spec/40_keccak_round_engine.md R75 to R82. It is one conforming realization of `keccakF` (R68, R84); the
commands use the reference definition. -/

namespace Sys2Proof.Machine

/-- The lane-position table (R75): `lanePos r q` is the physical lane that holds logical lane `q` at the start of
round `r`. -/
def lanePos : Nat → Fin 25 → Fin 25
  | 0, q => q
  | r + 1, q => lanePos r (piInv q)

/-- The logical lane that physical lane `p` holds in round `r`, the inverse of the table (R77). -/
def laneAt : Nat → Fin 25 → Fin 25
  | 0, p => p
  | r + 1, p => piPos (laneAt r p)

/-- The rotation table (R77): the rotation of physical lane `p` in round `r`. -/
def rotAmount (r : Nat) (p : Fin 25) : Nat :=
  rhoTable[laneAt r p]

/-- The constant XORed at the start of round `r`: the deferred ι of the round before; round 0 XORs nothing (R78). -/
def deferredConstant : Nat → Lane
  | 0 => 0
  | r + 1 => roundConstant r

/-- Step 1, the deferred ι (R78). -/
def circuitIota (r : Nat) (l : Lanes) : Lanes :=
  l.set 0 (l[0] ^^^ deferredConstant r)

/-- Step 1, the column parities in the scratch lanes `S[0..4]` (R78). -/
def circuitParity (r : Nat) (l : Lanes) : Vector Lane 5 :=
  Vector.ofFn fun x =>
    l[lanePos r (laneIdx x 0)] ^^^ l[lanePos r (laneIdx x 1)] ^^^ l[lanePos r (laneIdx x 2)]
      ^^^ l[lanePos r (laneIdx x 3)] ^^^ l[lanePos r (laneIdx x 4)]

/-- Step 2, the rotate-by-one shuffle of the five scratch lanes, all replaced at once (R79). -/
def circuitShuffle (par : Vector Lane 5) : Vector Lane 5 :=
  Vector.ofFn fun x => par[x + 4] ^^^ rotl par[x + 1] 1

/-- Step 3, the parity of its column into each lane, then the tabulated rotation (R80). -/
def circuitRotate (r : Nat) (par : Vector Lane 5) (l : Lanes) : Lanes :=
  Vector.ofFn fun p => rotl (l[p] ^^^ par[posX (laneAt r p)]) (rotAmount r p)

/-- Step 4, χ on the rows that π would form, each result in the lane where round `r + 1` reads it (R81). Lane `p`
is `phys[x']` of row `y'` for the position `(x', y')` that it holds in round `r + 1`. -/
def circuitChi (r : Nat) (l : Lanes) : Lanes :=
  Vector.ofFn fun p =>
    let q := laneAt (r + 1) p
    l[p] ^^^ (~~~l[lanePos r (piInv (laneIdx (posX q + 1) (posY q)))]
      &&& l[lanePos r (piInv (laneIdx (posX q + 2) (posY q)))])

/-- Round `r` on the physical lanes (R78 to R81). -/
def circuitRound (r : Nat) (l : Lanes) : Lanes :=
  let l1 := circuitIota r l
  circuitChi r (circuitRotate r (circuitShuffle (circuitParity r l1)) l1)

/-- The physical lanes after rounds `0 .. n-1`. -/
def circuitRounds (l : Lanes) : Nat → Lanes
  | 0 => l
  | n + 1 => circuitRound n (circuitRounds l n)

/-- The whole algorithm, with the last constant after round 23 (R82). -/
def circuitF (l : Lanes) : Lanes :=
  let l24 := circuitRounds l 24
  l24.set 0 (l24[0] ^^^ roundConstant 23)

end Sys2Proof.Machine
end

