-- ==== Sys2Proof/Safety.lean ====
section
/-! DEFINITION. The terms that claims use: the invariant of the machine, when each form of command is ready to run,
what a completed BIGINT command leaves, how the host reaches the window, and where the spec's own model stops at an
unwritten register. -/

namespace Sys2Proof.Machine

/-! ### The invariant -/

/-- A pointer that passed the checks on a state buffer (R85). -/
abbrev PointerOk (c : Params) (p : Word) : Prop :=
  p.toNat % c.stateAlign = 0 ∧ c.romBound ≤ p
    ∧ memAdmit c p.toNat (bufferSize c) .read = true ∧ memAdmit c p.toNat (bufferSize c) .write = true

/-- The hash context between commands: `0 <= filled < 136` (R29, R94), K scratch lanes (R29), and before the first
`hash.new` the lanes, cursor and variant of reset (R31, R38). -/
abbrev CtxInv (s : State) : Prop :=
  s.ctx.filled < rate ∧ s.ctx.scratch.length = s.params.scratchLanes
    ∧ (s.ctx.phase = .none →
        s.ctx.lanes = Vector.replicate 25 0 ∧ s.ctx.filled = 0 ∧ s.ctx.variant = .keccak)

/-- The sequence between commands: an active one expects a step from 1 to 648 and has a checked pointer; without one
`SEQ.NEXT` and `SEQ.TAINT` are 0 (R27, R34, R86). -/
abbrev SeqInv (s : State) : Prop :=
  if s.seq.active then 1 ≤ s.seq.next ∧ s.seq.next ≤ finalStep ∧ PointerOk s.params s.seq.ptr
  else s.seq.next = 0 ∧ s.seq.taint = false

/-- `RET[31:1] = 0` (R24). -/
abbrev RetInv (s : State) : Prop :=
  s.ret = 0 ∨ s.ret = 1

/-- `FAULT_INFO` is written only when a fault is raised (R26). -/
abbrev FaultInv (s : State) : Prop :=
  s.fault = none → s.faultInfo = 0

/-- What holds at reset and after every step. -/
abbrev State.Inv (s : State) : Prop :=
  paramsWf s.params = true ∧ s.mem.wf ∧ CtxInv s ∧ SeqInv s ∧ RetInv s ∧ FaultInv s

/-! ### When a command is ready -/

/-- `keccak.f` and `keccak.step 0` run (R85, R86). -/
abbrev KeccakReady (s : State) : Prop :=
  s.seq.active = false ∧ PointerOk s.params s.a

/-- `keccak.step k` with `k >= 1` runs (R86). -/
abbrev StepReady (k : BitVec 10) (s : State) : Prop :=
  s.seq.active = true ∧ k = s.seq.next ∧ s.a = s.seq.ptr

/-- The `LEN` input bytes at `A` may be read (R102, R105). -/
abbrev InputOk (s : State) : Prop :=
  0 < s.len.toNat → memAdmit s.params s.a.toNat s.len.toNat .read = true

/-- `hash.update` runs (R102). -/
abbrev UpdateReady (s : State) : Prop :=
  s.seq.active = false ∧ s.ctx.phase = .active ∧ InputOk s

/-- `hash.final` and `hash.final_reset` run (R103, R104). -/
abbrev FinalReady (s : State) : Prop :=
  s.seq.active = false ∧ s.ctx.phase = .active

/-- `hash.digest` runs (R105). -/
abbrev DigestReady (s : State) : Prop :=
  s.seq.active = false ∧ InputOk s

/-- A BIGINT command runs (R107); `writes` is false for Eq alone. -/
abbrev BigintReady (s : State) (writes : Bool) : Prop :=
  s.seq.active = false ∧ s.a.toNat % 32 = 0 ∧ s.b.toNat % 32 = 0 ∧ s.params.romBound ≤ s.a ∧ s.a ≠ s.b
    ∧ (s.b < s.params.romBound → s.a ≠ s.params.scratchAddr)
    ∧ memAdmit s.params s.a.toNat 32 .read = true
    ∧ (writes = true → memAdmit s.params s.a.toNat 32 .write = true)
    ∧ memAdmit s.params s.b.toNat 32 .read = true
    ∧ (s.b < s.params.romBound → memAdmit s.params s.params.scratchAddr.toNat 32 .write = true)

/-! ### What commands leave -/

/-- Every byte outside `[p, p+n)` is unchanged. -/
def SameOutside (m m' : Mem) (p n : Nat) : Prop :=
  ∀ x, x < p ∨ p + n ≤ x → m'.byte x = m.byte x

/-- The value of the operand `a` (R46). -/
def State.operandA (s : State) : Nat := s.mem.readNat s.a.toNat 32

/-- The value of the operand `b` (R46), at its own address. -/
def State.operandB (s : State) : Nat := s.mem.readNat s.b.toNat 32

/-- What a completed BIGINT command leaves (R107): `RET` is the bit, the destination holds `res` (for Eq, which
writes nothing there, its old value), the scratch slot holds `b` if `b` is in ROM, every other byte of memory is
unchanged, and so is every other piece of state; `drawn` free values have been used. -/
def BigintDone (s t : State) (writes : Bool) (res : Nat) (bit : Bool) (drawn : Nat) : Prop :=
  t = { s with
        mem := t.mem
        ret := if bit then 1 else 0
        written := { s.written with ret := true }
        draws := s.draws + drawn }
    ∧ t.mem.readNat s.a.toNat 32 = (if writes then res else s.operandA)
    ∧ (s.b < s.params.romBound → t.mem.readNat s.params.scratchAddr.toNat 32 = s.operandB)
    ∧ ∀ x, ¬(writes = true ∧ s.a.toNat ≤ x ∧ x < s.a.toNat + 32) →
        ¬(s.b < s.params.romBound ∧ s.params.scratchAddr.toNat ≤ x ∧ x < s.params.scratchAddr.toNat + 32) →
        t.mem.byte x = s.mem.byte x

/-- The bytes a command may write (R39, R49): the state buffer of a KECCAK command, the destination of a BIGINT
command other than Eq, and the scratch slot where the copy path runs. A HASH command writes none. -/
def mayWrite (i : Instr) (s : State) (x : Nat) : Prop :=
  match i with
  | .keccakF | .keccakStep _ => s.a.toNat ≤ x ∧ x < s.a.toNat + bufferSize s.params
  | .hashNew _ | .hashUpdate | .hashFinal | .hashFinalReset | .hashDigest _ => False
  | .bigintEq _ =>
    s.b < s.params.romBound ∧ s.params.scratchAddr.toNat ≤ x ∧ x < s.params.scratchAddr.toNat + 32
  | .bigintAdd _ | .bigintSub _ | .bigintSubneg _ | .bigintMullo _ | .bigintMulhi _ | .bigintMemcpy _ =>
    (s.a.toNat ≤ x ∧ x < s.a.toNat + 32)
      ∨ s.b < s.params.romBound ∧ s.params.scratchAddr.toNat ≤ x ∧ x < s.params.scratchAddr.toNat + 32

/-- `DOUT0..7` show the first 32 bytes of a Keccak state: word `j` is the low or the high half of lane `j div 2`
(R28, R47, R98). -/
def DigestShown (d : Vector Word 8) (ls : Lanes) : Prop :=
  ∀ (j : Nat) (h : j < 8), d[j] = (ls[j / 2] >>> (32 * (j % 2))).setWidth 32

/-! ### The host's accesses to the window -/

/-- The host writes the word `v` at an offset of the window: as an access to the window, or as a store of four bytes
at the address `BLOCK_BASE` plus the offset (R18, R19, R21; log 15). -/
def WritesWindow (c : Params) (act : HostAction) (offset v : Word) : Prop :=
  act = .windowWrite offset 4 v
    ∨ ∃ addr, act = .memWrite addr (natToBytes 4 v.toNat) ∧ offset.toNat < 0x40
        ∧ addr.toNat = c.blockBase.toNat + offset.toNat

/-- The host reads the word at an offset of the window, as an access to the window or as a load by address
(R18, R19, R21; log 15). -/
def ReadsWindow (c : Params) (act : HostAction) (offset : Word) : Prop :=
  act = .windowRead offset 4
    ∨ ∃ addr, act = .memRead addr 4 ∧ offset.toNat < 0x40 ∧ addr.toNat = c.blockBase.toNat + offset.toNat

/-- Some byte of `[p, p+n)` is a byte of the register window. -/
def TouchesWindow (c : Params) (p n : Nat) : Prop :=
  ∃ x, p ≤ x ∧ x < p + n ∧ c.blockBase.toNat ≤ x ∧ x < c.blockBase.toNat + 0x40

/-- A host access to the window that is not one aligned 32-bit word of it (R21); by address, one that touches the
window (log 15). -/
def MisshapenWindowAccess (c : Params) (act : HostAction) : Prop :=
  (∃ offset width v, (act = .windowWrite offset width v ∨ act = .windowRead offset width)
      ∧ (width ≠ 4 ∨ offset.toNat % 4 ≠ 0))
    ∨ ∃ addr n, ((∃ data, act = .memWrite addr data ∧ data.length = n) ∨ act = .memRead addr n)
      ∧ TouchesWindow c addr.toNat n ∧ (n ≠ 4 ∨ (addr - c.blockBase).toNat % 4 ≠ 0)

/-! ### Kinds of command -/

/-- A HASH command (R59). -/
def isHash : Instr → Bool
  | .hashNew _ | .hashUpdate | .hashFinal | .hashFinalReset | .hashDigest _ => true
  | _ => false

/-- A BIGINT command (R59). -/
def isBigint : Instr → Bool
  | .bigintAdd _ | .bigintSub _ | .bigintSubneg _ | .bigintMullo _ | .bigintMulhi _ | .bigintEq _ | .bigintMemcpy _ =>
    true
  | _ => false

/-- A command that produces a digest (R28). -/
def makesDigest : Instr → Bool
  | .hashFinal | .hashFinalReset | .hashDigest _ => true
  | _ => false

/-- A micro-step (R86). -/
def isStep : Instr → Bool
  | .keccakStep _ => true
  | _ => false

/-- The commands `keccak.step 0`, ..., `keccak.step (n-1)`, one after the other (R87). -/
def microSteps (s : State) : Nat → Host.Outcome State Fault Refusal
  | 0 => .next s
  | n + 1 =>
    match microSteps s n with
    | .next t => exec (.keccakStep (BitVec.ofNat 10 n)) t
    | .fault r => .fault r
    | .refused r => .refused r

/-- Byte-at-a-time absorption of one byte (R97). -/
def absorbByte (t : HashCtx) (v : Byte) : HashCtx :=
  trigger (putByte t v)

/-! ### Unwritten registers -/

/-- The command reads `A` (R62). -/
def readsA : Instr → Bool
  | .hashNew _ | .hashFinal | .hashFinalReset => false
  | _ => true

/-- The command reads `B` (R62). -/
def readsB : Instr → Bool
  | .bigintAdd _ | .bigintSub _ | .bigintSubneg _ | .bigintMullo _ | .bigintMulhi _ | .bigintEq _ | .bigintMemcpy _ =>
    true
  | _ => false

/-- The command reads `LEN` (R62). -/
def readsLen : Instr → Bool
  | .hashUpdate | .hashDigest _ => true
  | _ => false

/-- The command reaches its operand reads, item 4 of R126. -/
def reachesOperands (i : Instr) (s : State) : Bool :=
  match i with
  | .keccakStep k => if k = 0 then !s.seq.active else s.seq.active && decide (k = s.seq.next)
  | .hashUpdate | .hashFinal | .hashFinalReset => !s.seq.active && decide (s.ctx.phase = .active)
  | _ => !s.seq.active

/-- The spec's own model stops here with `UnwrittenOperand` (R20, R132); this model goes on with the value the
register holds (log 1). -/
def unwrittenOperand (i : Instr) (s : State) : Bool :=
  reachesOperands i s
    && (readsA i && !s.written.a || readsB i && !s.written.b || readsLen i && !s.written.len)

/-- The spec's own model stops here with `UnwrittenRead`, a host read of a register that holds `⊥` (R13, R132); this
model returns the value the register holds (log 1). -/
def unwrittenRead (offset : Word) (s : State) : Bool :=
  match offset.toNat with
  | 0x04 => !s.written.a
  | 0x08 => !s.written.b
  | 0x0C => !s.written.len
  | 0x10 => !s.written.ret
  | n => decide (0x20 ≤ n ∧ n < 0x40) && !s.written.dout

end Sys2Proof.Machine
end

