-- ==== Sys2Proof/Certificates/Slice0/Obligations.lean ====
section
/-! DEFINITION. The statements for the provers. Each docstring names the rule of spec/ it formalises. -/

open Sys2Proof Sys2Proof.Machine

/-! ### Encoding -/

/-- Decoding an encoded command gives it back, every operand at every value, on every platform (R63, R64). -/
def Obligations.DecodeEncodeRoundTrip : Prop :=
  ∀ (p : Params) (i : Instr), p.maskLayout.wf = true → i.wf p = true → decode p (encode p i) = .ok i

/-- A word that decodes is the one word of the command it decodes to, and that command exists on the platform: no
bit of a word is dropped (R63, R64). -/
def Obligations.EncodeDecodeRoundTrip : Prop :=
  ∀ (p : Params) (w : Word) (i : Instr), p.maskLayout.wf = true → decode p w = .ok i →
    i.wf p = true ∧ encode p i = w

/-- Exactly the reserved words of R65 are illegal, and each of them raises `ILLEGAL_COMMAND` with the word. -/
def Obligations.ReservedWordsAreIllegal : Prop :=
  ∀ (s : State) (w : Word), s.fault = none →
    let unit := (unitField w).toNat
    let op := (opField w).toNat
    let arg := argField w
    ((unit = 0 ∨ 4 ≤ unit)
        ∨ (unit = 1 ∧ 2 ≤ op) ∨ (unit = 2 ∧ 5 ≤ op) ∨ (unit = 3 ∧ 1 ≤ op)
        ∨ highField w ≠ 0
        ∨ (unit = 1 ∧ op = 0 ∧ arg ≠ 0)
        ∨ (unit = 2 ∧ 1 ≤ op ∧ op ≤ 3 ∧ arg ≠ 0)
        ∨ (unit = 2 ∧ (op = 0 ∨ op = 4) ∧ 2 ≤ arg.toNat)
        ∨ (unit = 3 ∧ op = 0 ∧ 256 ≤ arg.toNat)
        ∨ (unit = 3 ∧ op = 0
            ∧ (BigintOp.all.filter fun o => arg.getLsbD (s.params.maskLayout.bitOf o).val).length ≠ 1)
        ∨ (unit = 1 ∧ op = 1 ∧ 649 ≤ arg.toNat)
        ∨ (unit = 1 ∧ op = 1 ∧ s.params.backend = .sw))
      ↔ (∃ e, decode s.params w = .error e) ∧ issueCommand w s = .next (s.raise .illegalCommand w)

/-- Some words of the spec's table and of its vectors V-E, as the decoder reads them on the example platform. -/
def Obligations.TableWordsDecode : Prop :=
  decodeTableWord 32 0x10000000 = some .keccakF
    ∧ decodeTableWord 32 0x11000288 = some (.keccakStep 648)
    ∧ decodeTableWord 32 0x20000001 = some (.hashNew .sha3)
    ∧ decodeTableWord 32 0x21000000 = some .hashUpdate
    ∧ decodeTableWord 32 0x23000000 = some .hashFinalReset
    ∧ decodeTableWord 32 0x24000001 = some (.hashDigest .sha3)
    ∧ decodeTableWord 32 0x30000041 = some (.bigintAdd true)
    ∧ decodeTableWord 32 0x300000C0 = some (.bigintMemcpy true)
    ∧ decodeTableWord 32 0x30000048 = some (.bigintMullo true)
    ∧ decodeTableWord 32 0x11000289 = none
    ∧ decodeTableWord 32 0x00000000 = none

/-! ### The host's accesses -/

/-- A step runs the command the host writes to `CMD`, by offset or by address (R22; the address by log 15): on an
unfaulted block, when the word decodes to `i`, the step is `exec i` on the state with that access taken from the host's
stream. -/
def Obligations.StepRunsIssuedCommand : Prop :=
  ∀ (s : State) (act : HostAction) (rest : List HostAction) (w : Word) (i : Instr), paramsWf s.params = true →
    s.pending = act :: rest → WritesWindow s.params act 0x00#32 w → s.fault = none → decode s.params w = .ok i →
    step s = exec i (s.setPending rest)

/-- While the block is faulted every write to `CMD`, by offset or by address (log 15), is ignored: only the host's
stream moves on (R22, R128). -/
def Obligations.FaultedBlockIgnoresCommands : Prop :=
  ∀ (s : State) (act : HostAction) (rest : List HostAction) (w : Word), paramsWf s.params = true →
    s.pending = act :: rest → WritesWindow s.params act 0x00#32 w → s.fault ≠ none →
    step s = .next { s with pending := rest }

/-- An aligned word write to `A`, `B` or `LEN`, by offset or by address (log 15), sets all 32 bits of it, faulted or
not; one to any other offset but `CMD` is ignored (R18, R19, R20, R21, R128). -/
def Obligations.HostWindowWrites : Prop :=
  ∀ (s : State) (act : HostAction) (rest : List HostAction) (offset v : Word), paramsWf s.params = true →
    s.pending = act :: rest → WritesWindow s.params act offset v → offset.toNat % 4 = 0 → offset ≠ 0x00#32 →
    step s = .next
      (if offset = 0x04#32 then { s with a := v, written := { s.written with a := true }, pending := rest }
       else if offset = 0x08#32 then { s with b := v, written := { s.written with b := true }, pending := rest }
       else if offset = 0x0C#32 then { s with len := v, written := { s.written with len := true }, pending := rest }
       else { s with pending := rest })

/-- An aligned word read of the window, by offset or by address (log 15), returns the register of R19's table (0 for
`CMD` and for reserved offsets), its four bytes little-endian, and changes nothing else. Where the spec's register
holds `⊥` the value is the model's (log 1). -/
def Obligations.HostWindowReads : Prop :=
  ∀ (s : State) (act : HostAction) (rest : List HostAction) (offset : Word), paramsWf s.params = true →
    s.pending = act :: rest → ReadsWindow s.params act offset → offset.toNat % 4 = 0 →
    ∃ v : Word, step s = .next { s with pending := rest, hostData := natToBytes 4 v.toNat }
      ∧ (offset = 0x00#32 → v = 0) ∧ (offset = 0x04#32 → v = s.a) ∧ (offset = 0x08#32 → v = s.b)
      ∧ (offset = 0x0C#32 → v = s.len) ∧ (offset = 0x10#32 → v = s.ret) ∧ (offset = 0x14#32 → v = s.status)
      ∧ (offset = 0x18#32 → v = s.faultInfo) ∧ (offset = 0x1C#32 → v = s.seqWord)
      ∧ (∀ (j : Nat) (h : j < 8), offset.toNat = 0x20 + 4 * j → v = s.dout[j])
      ∧ (0x40 ≤ offset.toNat → v = 0)

/-- A host access to the window that is not an aligned 32-bit word is refused, by offset or by address, an access that
only partly overlaps the window among them (R21; the address by log 15). -/
def Obligations.MisshapenWindowAccessRefused : Prop :=
  ∀ (s : State) (act : HostAction) (rest : List HostAction), paramsWf s.params = true → s.pending = act :: rest →
    MisshapenWindowAccess s.params act → step s = .refused .hostAccessRefused

/-- The fields of STATUS (R25) and what the HASH fields show (R106), in every state with a cursor below 136. -/
def Obligations.StatusWordFields : Prop :=
  ∀ s : State, s.ctx.filled < 136 →
    (s.status.extractLsb' 0 1 = if s.fault = none then 0 else 1)
      ∧ s.status.extractLsb' 1 3 = 0
      ∧ ((s.status.extractLsb' 4 4).toNat =
          match s.fault with
          | none => 0
          | some .illegalCommand => 1
          | some .misaligned => 2
          | some .romWrite => 3
          | some .scratchBusy => 4
          | some .operandAlias => 5
          | some .stepSequence => 6
          | some .noContext => 7
          | some .memoryRange => 8)
      ∧ ((s.status.extractLsb' 8 2).toNat =
          match s.ctx.phase with
          | .none => 0
          | .active => 1
          | .finalized => 2)
      ∧ (s.status.extractLsb' 10 1 = if s.ctx.variant = .sha3 then 1 else 0)
      ∧ (s.status.extractLsb' 11 1 = if s.seq.active then 1 else 0)
      ∧ s.status.extractLsb' 12 4 = 0
      ∧ ((s.status.extractLsb' 16 8).toNat = if s.ctx.phase = .active then s.ctx.filled else 0)
      ∧ s.status.extractLsb' 24 8 = 0

/-- The SEQ word: `SEQ.NEXT` in bits 9:0, 0 when no sequence is active, at most 648; bits 31:10 are 0 (R27). -/
def Obligations.SeqWordShowsNext : Prop :=
  ∀ s : State, s.Inv →
    s.seqWord.extractLsb' 0 10 = s.seq.next ∧ s.seqWord.extractLsb' 10 22 = 0
      ∧ (s.seq.active = false → s.seqWord = 0) ∧ s.seqWord.toNat ≤ 648

/-- A host store to plain memory (outside the window and the ROM) puts its bytes there, leaves every other byte and
every register alone, and taints an active sequence exactly when it writes a byte of the sequence's buffer (R58). -/
def Obligations.HostStoreTaintsSequence : Prop :=
  ∀ (s : State) (rest : List HostAction) (addr : Word) (data : List Byte), paramsWf s.params = true → s.mem.wf →
    s.pending = .memWrite addr data :: rest → addr.toNat + data.length ≤ 2 ^ 32 →
    (addr.toNat + data.length ≤ s.params.blockBase.toNat ∨ s.params.blockBase.toNat + 0x40 ≤ addr.toNat) →
    s.params.romBound ≤ addr →
    ∃ t, step s = .next t
      ∧ t.mem.bytes addr.toNat data.length = data
      ∧ SameOutside s.mem t.mem addr.toNat data.length
      ∧ (t.seq.taint = true ↔
          s.seq.taint = true ∨ s.seq.active = true ∧ ∃ x, addr.toNat ≤ x ∧ x < addr.toNat + data.length
            ∧ s.seq.ptr.toNat ≤ x ∧ x < s.seq.ptr.toNat + 8 * (25 + s.params.scratchLanes))
      ∧ t = { s with pending := rest, mem := t.mem, seq := { s.seq with taint := t.seq.taint } }

/-- A host load outside the window returns the bytes of memory and changes nothing else, whatever the fault, the hash
context or the sequence (R51, R88); so a store and then a load of the same range returns the stored bytes. -/
def Obligations.HostLoadSeesStore : Prop :=
  (∀ (s : State) (rest : List HostAction) (addr : Word) (count : Nat), paramsWf s.params = true →
      s.pending = .memRead addr count :: rest → addr.toNat + count ≤ 2 ^ 32 →
      ¬TouchesWindow s.params addr.toNat count →
      step s = .next
        { s with
          pending := rest
          hostData := (List.range count).map fun i => s.mem.byte (addr.toNat + i) })
    ∧ ∀ (s : State) (rest : List HostAction) (addr : Word) (data : List Byte), paramsWf s.params = true → s.mem.wf →
      s.pending = .memWrite addr data :: .memRead addr data.length :: rest → addr.toNat + data.length ≤ 2 ^ 32 →
      ¬TouchesWindow s.params addr.toNat data.length → s.params.romBound ≤ addr →
      ∃ t u, step s = .next t ∧ step t = .next u ∧ u = { t with pending := rest, hostData := data }

/-- With no host access to come the block is idle and keeps all its state (R138). -/
def Obligations.IdleBlockKeepsState : Prop :=
  ∀ s : State, paramsWf s.params = true → s.pending = [] → step s = .next s

/-- A platform that breaks a constraint of R8 is refused (R132, R141). R132 says that the model refuses to start; that
it refuses at every step is the model's reading of it (log 17). -/
def Obligations.IllFormedParametersRefused : Prop :=
  ∀ s : State,
    (s.params.romBound.toNat % 32 ≠ 0 ∨ s.params.scratchAddr.toNat % 32 ≠ 0
        ∨ s.params.scratchAddr < s.params.romBound ∨ s.params.scratchLanes < 5
        ∨ (¬∃ k, s.params.stateAlign = 2 ^ k)
        ∨ ∃ x, s.params.scratchAddr.toNat ≤ x ∧ x < s.params.scratchAddr.toNat + 32
            ∧ s.params.blockBase.toNat ≤ x ∧ x < s.params.blockBase.toNat + 0x40) →
    step s = .refused .illFormedParameters

/-! ### Reset and faults -/

/-- Reset puts every piece of the block's state at its reset value and leaves memory, the parameters and the rest of
the host's stream alone (R139). The value 0 of the registers that the spec resets to `⊥`, and of the scratch lanes,
is the model's choice (logs 1 and 11). -/
def Obligations.ResetClearsBlock : Prop :=
  ∀ (s : State) (rest : List HostAction), paramsWf s.params = true → s.pending = .reset :: rest →
    step s = .next
      { State.reset with
        params := s.params
        ctx := { State.reset.ctx with scratch := List.replicate s.params.scratchLanes 0 }
        mem := s.mem
        pending := rest
        hostData := s.hostData
        draws := s.draws }

/-- The values the spec gives for reset (R38): STATUS, FAULT_INFO and SEQ are 0, every register is unwritten, the
hash context is NONE with zero lanes and cursor, and there is no sequence. -/
def Obligations.ResetStateValues : Prop :=
  State.reset.status = 0 ∧ State.reset.faultInfo = 0 ∧ State.reset.seqWord = 0
    ∧ State.reset.written = { a := false, b := false, len := false, ret := false, dout := false }
    ∧ State.reset.ctx.lanes = Vector.replicate 25 0 ∧ State.reset.ctx.filled = 0
    ∧ State.reset.ctx.variant = .keccak ∧ State.reset.ctx.phase = .none
    ∧ State.reset.seq
        = { active := false, next := 0, ptr := 0, snap := Vector.replicate 25 0, taint := false }

/-- Nothing but reset clears a fault or changes what was recorded of it (R129). -/
def Obligations.OnlyResetClearsFault : Prop :=
  ∀ (s t : State) (f : FaultCode), s.fault = some f → step s = .next t →
    (t.fault = some f ∧ t.faultInfo = s.faultInfo) ∨ ∃ rest, s.pending = .reset :: rest

/-- The parameters do not change (R141). -/
def Obligations.StepKeepsParameters : Prop :=
  ∀ s t : State, step s = .next t → t.params = s.params

/-- Every step keeps the invariant: canonical memory, a cursor below 136, a legal sequence with a checked pointer,
`RET` 0 or 1, `FAULT_INFO` 0 without a fault (R24, R26, R27, R29, R34, R94). -/
def Obligations.StepKeepsInvariant : Prop :=
  ∀ s t : State, s.Inv → step s = .next t → t.Inv

/-- Reset meets the invariant. -/
def Obligations.ResetMeetsInvariant : Prop :=
  State.reset.Inv

/-- A command that raises a fault with code `f` and information `i` sets `FAULTED`, `FAULT_CODE` and `FAULT_INFO` and
changes nothing else (R127). -/
def Obligations.FaultIsPrecise : Prop :=
  ∀ (s t : State) (w : Word), s.fault = none → issueCommand w s = .next t → t.fault ≠ none →
    ∃ (f : FaultCode) (i : Word), t = { s with fault := some f, faultInfo := i }
      ∧ t.status.extractLsb' 0 1 = 1 ∧ t.status.extractLsb' 4 4 = faultNumber f ∧ t.faultInfo = i

/-- While a sequence is active every command but its next step with its pointer raises `STEP_SEQUENCE` with the
command word, and only that sequence's final step or reset ends it (R89). -/
def Obligations.SequenceLocksOutCommands : Prop :=
  (∀ (s : State) (w : Word) (i : Instr), s.params.maskLayout.wf = true → s.fault = none → s.seq.active = true →
      decode s.params w = .ok i →
      ¬(∃ k, i = .keccakStep k ∧ k ≠ 0 ∧ k = s.seq.next ∧ s.a = s.seq.ptr) →
      issueCommand w s = .next (s.raise .stepSequence w))
    ∧ ∀ s t : State, s.seq.active = true → step s = .next t → t.seq.active = false →
        (∃ rest, s.pending = .reset :: rest)
          ∨ s.seq.next = 648#10 ∧ exec (.keccakStep 648) (s.setPending s.pending.tail) = .next t

/-- The conditions of the KECCAK commands in their order, each with its fault and information word; where none fails
no fault is raised (R85, R86, R126). By the model's choice `A` need not have been written: item 4 of R126, where the
spec's own model stops, is left out (log 1). So is the bound on `k`, which no word breaks (log 20). -/
def Obligations.KeccakFaultOrder : Prop :=
  ∀ s : State,
    (∀ i : Instr, i = .keccakF ∨ i = .keccakStep 0 →
        if s.seq.active = true then exec i s = .next (s.raise .stepSequence (encode s.params i))
        else if s.a.toNat % s.params.stateAlign ≠ 0 then exec i s = .next (s.raise .misaligned s.a)
        else if s.a < s.params.romBound then exec i s = .next (s.raise .romWrite s.a)
        else if memAdmit s.params s.a.toNat (8 * (25 + s.params.scratchLanes)) .read = false
            ∨ memAdmit s.params s.a.toNat (8 * (25 + s.params.scratchLanes)) .write = false then
          exec i s = .next (s.raise .memoryRange s.a)
        else ∃ t, exec i s = .next t ∧ t.fault = s.fault ∧ t.faultInfo = s.faultInfo)
      ∧ ∀ k : BitVec 10, k ≠ 0 →
        if s.seq.active = false ∨ k ≠ s.seq.next ∨ s.a ≠ s.seq.ptr then
          exec (.keccakStep k) s = .next (s.raise .stepSequence (encode s.params (.keccakStep k)))
        else ∃ t, exec (.keccakStep k) s = .next t ∧ t.fault = s.fault ∧ t.faultInfo = s.faultInfo

/-- The conditions of the HASH commands in their order (R101 to R105, R126). By the model's choice `A` and `LEN` need not
have been written: item 4 of R126, where the spec's own model stops, is left out (log 1). -/
def Obligations.HashFaultOrder : Prop :=
  ∀ (s : State) (v : Variant),
    (s.seq.active = true → ∀ i : Instr, isHash i = true →
        exec i s = .next (s.raise .stepSequence (encode s.params i)))
      ∧ (s.seq.active = false → s.ctx.phase ≠ .active →
          ∀ i : Instr, i = .hashUpdate ∨ i = .hashFinal ∨ i = .hashFinalReset →
          exec i s = .next (s.raise .noContext (encode s.params i)))
      ∧ (s.seq.active = false → 0 < s.len.toNat → memAdmit s.params s.a.toNat s.len.toNat .read = false →
          exec (.hashDigest v) s = .next (s.raise .memoryRange s.a)
            ∧ (s.ctx.phase = .active → exec .hashUpdate s = .next (s.raise .memoryRange s.a)))

/-- The conditions of the BIGINT frame in their order, each with its fault and information word; where none fails no
fault is raised (R107, R126). By the model's choice `A` and `B` need not have been written: item 4 of R126, where the
spec's own model stops, is left out (log 1). -/
def Obligations.BigintFaultOrder : Prop :=
  ∀ (s : State) (op : BigintOp) (c : Bool),
    let run := exec (op.instr c) s
    let copy := s.b < s.params.romBound
    if s.seq.active = true then run = .next (s.raise .stepSequence (encode s.params (op.instr c)))
    else if s.a.toNat % 32 ≠ 0 then run = .next (s.raise .misaligned s.a)
    else if s.b.toNat % 32 ≠ 0 then run = .next (s.raise .misaligned s.b)
    else if s.a < s.params.romBound then run = .next (s.raise .romWrite s.a)
    else if s.a = s.b then run = .next (s.raise .operandAlias s.a)
    else if copy ∧ s.a = s.params.scratchAddr then run = .next (s.raise .scratchBusy s.a)
    else if memAdmit s.params s.a.toNat 32 .read = false
        ∨ op ≠ .eq ∧ memAdmit s.params s.a.toNat 32 .write = false then run = .next (s.raise .memoryRange s.a)
    else if memAdmit s.params s.b.toNat 32 .read = false then run = .next (s.raise .memoryRange s.b)
    else if copy ∧ memAdmit s.params s.params.scratchAddr.toNat 32 .write = false then
      run = .next (s.raise .memoryRange s.params.scratchAddr)
    else ∃ t, run = .next t ∧ t.fault = s.fault ∧ t.faultInfo = s.faultInfo

/-- `MemAdmit` refuses every range that wraps or touches the register window, and by default admits every other
range (R41). -/
def Obligations.MemAdmitRefusesWrapAndWindow : Prop :=
  ∀ (c : Params) (p n : Nat) (kind : AccessKind), 0 < n →
    let good := p + n ≤ 2 ^ 32 ∧ ∀ x, p ≤ x → x < p + n →
      ¬(c.blockBase.toNat ≤ x ∧ x < c.blockBase.toNat + 0x40)
    (memAdmit c p n kind = true → good) ∧ (c.memRefusals = [] → good → memAdmit c p n kind = true)

/-! ### The KECCAK unit -/

/-- `keccak.f` (R85): the 25 real lanes become `KeccakF` of themselves, the scratch lanes become draws, and nothing
else changes. -/
def Obligations.KeccakFPermutesBuffer : Prop :=
  ∀ s : State, s.mem.wf → KeccakReady s →
    ∃ t, exec .keccakF s = .next t
      ∧ t.mem.readLanes s.a.toNat = keccakF (s.mem.readLanes s.a.toNat)
      ∧ (∀ j, j < s.params.scratchLanes → t.mem.readLane (s.a.toNat + 8 * (25 + j)) = Config.draw (s.draws + j))
      ∧ SameOutside s.mem t.mem s.a.toNat (8 * (25 + s.params.scratchLanes))
      ∧ t = { s with mem := t.mem, draws := s.draws + s.params.scratchLanes }

/-- `keccak.step 0` (R86): the snapshot is taken, the sequence is active and expects step 1, every lane of the buffer
becomes a draw, and nothing else changes. -/
def Obligations.KeccakStepZeroStarts : Prop :=
  ∀ s : State, s.mem.wf → KeccakReady s →
    ∃ t, exec (.keccakStep 0) s = .next t
      ∧ t.seq = { active := true, next := 1, ptr := s.a, snap := s.mem.readLanes s.a.toNat, taint := false }
      ∧ (∀ j, j < 25 + s.params.scratchLanes → t.mem.readLane (s.a.toNat + 8 * j) = Config.draw (s.draws + j))
      ∧ SameOutside s.mem t.mem s.a.toNat (8 * (25 + s.params.scratchLanes))
      ∧ t = { s with mem := t.mem, seq := t.seq, draws := s.draws + (25 + s.params.scratchLanes) }

/-- `keccak.step k` for `1 <= k <= 647` (R86): the sequence expects `k + 1`, every lane of the buffer becomes a draw,
and nothing else changes. -/
def Obligations.KeccakStepContinues : Prop :=
  ∀ (s : State) (k : BitVec 10), s.Inv → k ≠ 0 → k.toNat < 648 → StepReady k s →
    ∃ t, exec (.keccakStep k) s = .next t
      ∧ t.seq = { s.seq with next := k + 1 }
      ∧ (∀ j, j < 25 + s.params.scratchLanes → t.mem.readLane (s.a.toNat + 8 * j) = Config.draw (s.draws + j))
      ∧ SameOutside s.mem t.mem s.a.toNat (8 * (25 + s.params.scratchLanes))
      ∧ t = { s with mem := t.mem, seq := t.seq, draws := s.draws + (25 + s.params.scratchLanes) }

/-- `keccak.step 648` (R86): the real lanes become `KeccakF` of the snapshot, or 25 draws if the buffer was tainted;
the scratch lanes become draws; the sequence ends; and nothing else changes. -/
def Obligations.KeccakStepFinishes : Prop :=
  ∀ s : State, s.Inv → StepReady 648 s →
    let d := s.draws + (if s.seq.taint then 25 else 0)
    ∃ t, exec (.keccakStep 648) s = .next t
      ∧ (s.seq.taint = false → t.mem.readLanes s.a.toNat = keccakF s.seq.snap)
      ∧ (s.seq.taint = true → t.mem.readLanes s.a.toNat = drawState s.draws)
      ∧ (∀ j, j < s.params.scratchLanes → t.mem.readLane (s.a.toNat + 8 * (25 + j)) = Config.draw (d + j))
      ∧ SameOutside s.mem t.mem s.a.toNat (8 * (25 + s.params.scratchLanes))
      ∧ t = { s with
              mem := t.mem
              seq := { s.seq with active := false, next := 0, taint := false }
              draws := d + s.params.scratchLanes }

/-- The 649 micro-steps with one pointer leave lanes 0 to 24 equal to `KeccakF` of their values before step 0, exactly
as one `keccak.f`, and the scratch lanes unspecified: draws (R87). -/
def Obligations.MicroStepsEqualOnePermutation : Prop :=
  ∀ s : State, s.mem.wf → KeccakReady s →
    ∃ t u, microSteps s 649 = .next t ∧ exec .keccakF s = .next u
      ∧ t.mem.readLanes s.a.toNat = keccakF (s.mem.readLanes s.a.toNat)
      ∧ t.mem.readLanes s.a.toNat = u.mem.readLanes s.a.toNat
      ∧ (∀ j, j < s.params.scratchLanes → t.mem.readLane (s.a.toNat + 8 * (25 + j))
          = Config.draw (s.draws + 648 * (25 + s.params.scratchLanes) + j))
      ∧ SameOutside s.mem t.mem s.a.toNat (8 * (25 + s.params.scratchLanes))
      ∧ t.seq.active = false ∧ t.seq.next = 0

/-- The circuit-shaped algorithm gives `KeccakF` (R84). -/
def Obligations.CircuitAlgorithmIsKeccakF : Prop :=
  ∀ l : Lanes, circuitF l = keccakF l

/-- The lane-position table is back at its start after 24 rounds and not before for any lane but lane 0, which never
moves (R76). -/
def Obligations.LaneTableReturnsAfter24Rounds : Prop :=
  (∀ q, lanePos 24 q = lanePos 0 q) ∧ (∀ r, lanePos r 0 = 0)
    ∧ ∀ q : Fin 25, q ≠ 0 → ∀ n, 0 < n → n < 24 → lanePos n q ≠ q

/-- The known-answer test (R91) with the full lists of spec/95_test_vectors.md W1: the input list is `KeccakF` of the
all-zero state and one permutation of it gives the output list. -/
def Obligations.KnownAnswerPermutation : Prop :=
  let input := keccakF (Vector.replicate 25 0)
  input.toList =
      [ 0xF1258F7940E1DDE7, 0x84D5CCF933C0478A, 0xD598261EA65AA9EE, 0xBD1547306F80494D, 0x8B284E056253D057,
        0xFF97A42D7F8E6FD4, 0x90FEE5A0A44647C4, 0x8C5BDA0CD6192E76, 0xAD30A6F71B19059C, 0x30935AB7D08FFC64,
        0xEB5AA93F2317D635, 0xA9A6E6260D712103, 0x81A57C16DBCF555F, 0x43B831CD0347C826, 0x01F22F1A11A5569F,
        0x05E5635A21D9AE61, 0x64BEFEF28CC970F2, 0x613670957BC46611, 0xB87C5A554FD00ECB, 0x8C3EE88A1CCF32C8,
        0x940C7922AE3A2614, 0x1841F924A2C509E4, 0x16F53526E70465C2, 0x75F644E97F30A13B, 0xEAF1FF7B5CECA249 ]
    ∧ (keccakF input).toList =
      [ 0x2D5C954DF96ECB3C, 0x6A332CD07057B56D, 0x093D8D1270D76B6C, 0x8A20D9B25569D094, 0x4F9C4F99E5E7F156,
        0xF957B9A2DA65FB38, 0x85773DAE1275AF0D, 0xFAF4F247C3D810F7, 0x1F1B9EE6F79A8759, 0xE4FECC0FEE98B425,
        0x68CE61B6B9CE68A1, 0xDEEA66C4BA8F974F, 0x33C43D836EAFB1F5, 0xE00654042719DBD9, 0x7CF8A9F009831265,
        0xFD5449A6BF174743, 0x97DDAD33D8994B40, 0x48EAD5FC5D0BE774, 0xE3B8C8EE55B7B03C, 0x91A0226E649E42E9,
        0x900E3129E7BADD7B, 0x202A9EC5FAA3CCE8, 0x5B3402464E1C3DB6, 0x609F4E62A44C1059, 0x20D06CD26A8FBF5C ]

/-- What the scratch lanes held before `keccak.f` does not matter to lanes 0 to 24 after it (R83). -/
def Obligations.ScratchLanesDoNotMatter : Prop :=
  ∀ (s : State) (m : Mem), s.mem.wf → m.wf → KeccakReady s →
    (∀ x, x < s.a.toNat + 200 ∨ s.a.toNat + 8 * (25 + s.params.scratchLanes) ≤ x → m.byte x = s.mem.byte x) →
    ∃ t u, exec .keccakF s = .next t ∧ exec .keccakF { s with mem := m } = .next u
      ∧ u.mem.readLanes s.a.toNat = t.mem.readLanes s.a.toNat

/-! ### The HASH unit -/

/-- `hash.new` (R101) from any phase: zero lanes and cursor, the variant, ACTIVE; nothing else changes. -/
def Obligations.HashNewStartsContext : Prop :=
  ∀ (s : State) (v : Variant), s.seq.active = false →
    exec (.hashNew v) s = .next
      { s with
        ctx := { lanes := Vector.replicate 25 0, scratch := s.ctx.scratch, filled := 0, variant := v, phase := .active } }

/-- `hash.update` (R102): the `LEN` bytes at `A` are absorbed one after the other, the cursor goes on modulo 136, and
nothing but the context changes; without a permutation its scratch lanes do not either. -/
def Obligations.HashUpdateAbsorbs : Prop :=
  ∀ s : State, s.ctx.filled < 136 → UpdateReady s →
    ∃ t, exec .hashUpdate s = .next t
      ∧ t.ctx.lanes = ((s.mem.bytes s.a.toNat s.len.toNat).foldl absorbByte s.ctx).lanes
      ∧ t.ctx.filled = (s.ctx.filled + s.len.toNat) % 136
      ∧ t.ctx.variant = s.ctx.variant ∧ t.ctx.phase = .active
      ∧ (s.ctx.filled + s.len.toNat < 136 → t.ctx.scratch = s.ctx.scratch ∧ t.draws = s.draws)
      ∧ t = { s with ctx := t.ctx, draws := t.draws }

/-- The three phases of `Absorb` have the effect of absorbing the bytes one at a time (R95, R97). -/
def Obligations.AbsorbIsBytewise : Prop :=
  ∀ (t : HashCtx) (data : List Byte), t.filled < 136 → absorb t data = data.foldl absorbByte t

/-- One absorbed byte, the cursor and the chunking (R92, R93, R94, R97). Below cursor 135 a byte `b` is XORed into
lane `filled / 8`, shifted by `8 * (filled mod 8)`, and the cursor advances; at cursor 135 it is XORed into the top byte
of lane 16, the real lanes become `KeccakF` of that state and the cursor is 0. Any input leaves the cursor
`(filled + n) mod 136` and absorbs `(filled + n) div 136` bytes at cursor 135, which is the number of permutations;
and absorbing in two chunks is absorbing at once. -/
def Obligations.AbsorbCursorAndChunking : Prop :=
  ∀ (t : HashCtx) (data more : List Byte) (b : Byte), t.filled < 136 →
    (∀ h : t.filled < 135, absorb t [b] =
        { t with
          lanes := t.lanes.set (t.filled / 8)
            (t.lanes[t.filled / 8] ^^^ (b.setWidth 64 <<< (8 * (t.filled % 8))))
          filled := t.filled + 1 })
      ∧ (t.filled = 135 → absorb t [b] =
          { t with lanes := keccakF (t.lanes.set 16 (t.lanes[16] ^^^ (b.setWidth 64 <<< 56))), filled := 0 })
      ∧ (absorb t data).filled = (t.filled + data.length) % 136
      ∧ (List.range data.length).countP (fun i => decide ((absorb t (data.take i)).filled = 135))
          = (t.filled + data.length) / 136
      ∧ absorb (absorb t data) more = absorb t (data ++ more)

/-- The padding (R98): the variant's byte at the cursor and the domain bit in lane 16, and no other bit. At cursor 135
both fall into byte 135, `0x81` or `0x86`; at cursor 0 the padding byte lands in byte 0 of lane 0 (R99). -/
def Obligations.PaddingPlacesBytes : Prop :=
  ∀ (t : HashCtx), t.filled < 136 →
    let b : Lane := if t.variant = .keccak then 0x01 else 0x06
    (∀ (i : Nat) (h : i < 25), (pad t).lanes[i]
        = t.lanes[i] ^^^ (if i = t.filled / 8 then b <<< (8 * (t.filled % 8)) else 0)
          ^^^ (if i = 16 then 0x8000000000000000 else 0))
      ∧ (t.filled = 135 → (pad t).lanes[16]
          = t.lanes[16] ^^^ ((if t.variant = .keccak then 0x81 else 0x86) <<< 56))
      ∧ (t.filled = 0 → (pad t).lanes[0] = t.lanes[0] ^^^ b)

/-- `hash.final` (R103): `DOUT` shows the permuted padded state, the context is FINALIZED with its variant, and
nothing else changes. -/
def Obligations.HashFinalDigest : Prop :=
  ∀ s : State, FinalReady s →
    ∃ t, exec .hashFinal s = .next t
      ∧ DigestShown t.dout (keccakF (pad s.ctx).lanes)
      ∧ t.ctx.phase = .finalized ∧ t.ctx.variant = s.ctx.variant
      ∧ t = { s with dout := t.dout, written := { s.written with dout := true }, ctx := t.ctx, draws := t.draws }

/-- `hash.final_reset` (R104): the same digest, then zero lanes and cursor, ACTIVE with the same variant; nothing else
changes. -/
def Obligations.HashFinalResetDigest : Prop :=
  ∀ s : State, FinalReady s →
    ∃ t, exec .hashFinalReset s = .next t
      ∧ DigestShown t.dout (keccakF (pad s.ctx).lanes)
      ∧ t.ctx.lanes = Vector.replicate 25 0 ∧ t.ctx.filled = 0 ∧ t.ctx.variant = s.ctx.variant
      ∧ t.ctx.phase = .active
      ∧ t = { s with dout := t.dout, written := { s.written with dout := true }, ctx := t.ctx, draws := t.draws }

/-- `hash.digest` (R105): the digest of the `LEN` bytes at `A` absorbed one by one into a zero state of the variant;
nothing but `DOUT` changes. -/
def Obligations.HashDigestOneShot : Prop :=
  ∀ (s : State) (v : Variant), DigestReady s →
    ∃ t, exec (.hashDigest v) s = .next t
      ∧ (∀ fresh : HashCtx, fresh.lanes = Vector.replicate 25 0 → fresh.filled = 0 → fresh.variant = v →
          DigestShown t.dout
            (keccakF (pad ((s.mem.bytes s.a.toNat s.len.toNat).foldl absorbByte fresh)).lanes))
      ∧ t = { s with dout := t.dout, written := { s.written with dout := true } }

/-- `hash.digest` gives the digest of `hash.new`, `hash.update`, `hash.final` on the same bytes, and leaves the context
alone (R105, R67). -/
def Obligations.DigestEqualsStreamedDigest : Prop :=
  ∀ (s : State) (v : Variant), DigestReady s →
    ∃ t1 t2 t3 d, exec (.hashNew v) s = .next t1 ∧ exec .hashUpdate t1 = .next t2 ∧ exec .hashFinal t2 = .next t3
      ∧ exec (.hashDigest v) s = .next d ∧ d.dout = t3.dout ∧ d.ctx = s.ctx ∧ d.mem = s.mem

/-! ### The BIGINT unit -/

/-- `bigint.add` (R114): the sum modulo `2^256` and the carry-out. -/
def Obligations.BigintAddResult : Prop :=
  ∀ (s : State) (c : Bool), paramsWf s.params = true → s.mem.wf → BigintReady s true →
    ∃ t, exec (.bigintAdd c) s = .next t
      ∧ BigintDone s t true ((s.operandA + s.operandB + c.toNat) % 2 ^ 256)
          (decide (2 ^ 256 ≤ s.operandA + s.operandB + c.toNat)) 0

/-- `bigint.sub` (R115): the difference modulo `2^256` and the borrow-out. -/
def Obligations.BigintSubResult : Prop :=
  ∀ (s : State) (c : Bool), paramsWf s.params = true → s.mem.wf → BigintReady s true →
    ∃ t, exec (.bigintSub c) s = .next t
      ∧ BigintDone s t true (((s.operandA : Int) - s.operandB - c.toNat) % 2 ^ 256).toNat
          (decide (s.operandA < s.operandB + c.toNat)) 0

/-- `bigint.subneg` (R116): the reverse difference modulo `2^256` and its borrow-out. -/
def Obligations.BigintSubnegResult : Prop :=
  ∀ (s : State) (c : Bool), paramsWf s.params = true → s.mem.wf → BigintReady s true →
    ∃ t, exec (.bigintSubneg c) s = .next t
      ∧ BigintDone s t true (((s.operandB : Int) - s.operandA - c.toNat) % 2 ^ 256).toNat
          (decide (s.operandB < s.operandA + c.toNat)) 0

/-- `bigint.memcpy` (R117): `b` plus the carry-in modulo `2^256`, and the overflow. -/
def Obligations.BigintMemcpyResult : Prop :=
  ∀ (s : State) (c : Bool), paramsWf s.params = true → s.mem.wf → BigintReady s true →
    ∃ t, exec (.bigintMemcpy c) s = .next t
      ∧ BigintDone s t true ((s.operandB + c.toNat) % 2 ^ 256) (decide (s.operandB + c.toNat = 2 ^ 256)) 0

/-- `bigint.mullo` (R118): the low half of the product; the bit is a draw; `C` is ignored. -/
def Obligations.BigintMulloResult : Prop :=
  ∀ (s : State) (c : Bool), paramsWf s.params = true → s.mem.wf → BigintReady s true →
    ∃ t, exec (.bigintMullo c) s = .next t
      ∧ BigintDone s t true (s.operandA * s.operandB % 2 ^ 256) (Config.drawBit s.draws) 1

/-- `bigint.mulhi` (R119): the high half of the product and the bit 0; `C` is ignored. -/
def Obligations.BigintMulhiResult : Prop :=
  ∀ (s : State) (c : Bool), paramsWf s.params = true → s.mem.wf → BigintReady s true →
    ∃ t, exec (.bigintMulhi c) s = .next t
      ∧ BigintDone s t true (s.operandA * s.operandB / 2 ^ 256) false 0

/-- `bigint.eq` (R120, R123): the bit tells whether the operands hold the same value, and `a` is not written; `C` is
ignored. -/
def Obligations.BigintEqResult : Prop :=
  ∀ (s : State) (c : Bool), paramsWf s.params = true → s.mem.wf → BigintReady s false →
    ∃ t, exec (.bigintEq c) s = .next t
      ∧ BigintDone s t false s.operandA (decide (s.operandA = s.operandB)) 0

/-- Add and then Sub with the same `b` and carry bit restores `a`, and the borrow-out is the carry-out (R121). -/
def Obligations.AddThenSubRestores : Prop :=
  ∀ (s : State) (c : Bool), paramsWf s.params = true → s.mem.wf → BigintReady s true →
    ∃ t u, exec (.bigintAdd c) s = .next t ∧ exec (.bigintSub c) t = .next u
      ∧ u.operandA = s.operandA ∧ u.operandB = s.operandB ∧ u.ret = t.ret

/-- MulLow and MulHigh of the same operands are the two halves of the exact product (R122). -/
def Obligations.ProductHalves : Prop :=
  ∀ (s : State) (c c' : Bool), paramsWf s.params = true → s.mem.wf → BigintReady s true →
    ∃ lo hi, exec (.bigintMullo c) s = .next lo ∧ exec (.bigintMulhi c') s = .next hi
      ∧ lo.operandA + 2 ^ 256 * hi.operandA = s.operandA * s.operandB

/-- The destination value and `RET` of a command whose `b` is in ROM are those of the same command with `b`'s value at
a writable address (R112). The `RET` of `bigint.mullo` is a draw (R118): it is the same because the two states are
assumed to have used the same number of draws (log 5, the model's choice). -/
def Obligations.RomOperandSameResult : Prop :=
  ∀ (op : BigintOp) (c : Bool) (s s' : State), paramsWf s.params = true → s.mem.wf → s'.mem.wf →
    s'.params = s.params → s'.a = s.a → s'.draws = s.draws →
    BigintReady s (decide (op ≠ .eq)) → BigintReady s' (decide (op ≠ .eq)) →
    s.b < s.params.romBound → s.params.romBound ≤ s'.b →
    s'.operandA = s.operandA → s'.operandB = s.operandB →
    ∃ t t', exec (op.instr c) s = .next t ∧ exec (op.instr c) s' = .next t'
      ∧ t'.operandA = t.operandA ∧ t'.ret = t.ret

/-- The value of a bigint operand is the sum of its bytes, of its eight 32-bit limbs and of its four 64-bit limbs,
the least significant first (R46). -/
def Obligations.OperandValueFromLimbs : Prop :=
  ∀ (m : Mem) (p : Nat),
    m.readNat p 32 = ((List.range 32).map fun i => (m.byte (p + i)).toNat * 2 ^ (8 * i)).sum
      ∧ m.readNat p 32 = ((List.range 8).map fun j => m.readNat (p + 4 * j) 4 * 2 ^ (32 * j)).sum
      ∧ m.readNat p 32 = ((List.range 4).map fun j => m.readNat (p + 8 * j) 8 * 2 ^ (64 * j)).sum

/-! ### The whole machine -/

/-- No command writes below `ROM_BOUND` (R40). -/
def Obligations.CommandsNeverWriteRom : Prop :=
  ∀ (i : Instr) (s t : State), s.Inv → exec i s = .next t →
    ∀ x, x < s.params.romBound.toNat → t.mem.byte x = s.mem.byte x

/-- A command writes only its own object: the state buffer, the BIGINT destination, the scratch slot of the copy path;
a HASH command writes no memory (R39, R49). -/
def Obligations.CommandsWriteOnlyTheirObjects : Prop :=
  ∀ (i : Instr) (s t : State), s.Inv → exec i s = .next t →
    ∀ x, ¬mayWrite i s x → t.mem.byte x = s.mem.byte x

/-- What a command of one unit leaves of the others' registers: `A`, `B`, `LEN` always (R20); `RET` but for BIGINT
(R24); `DOUT` but for the commands that make a digest (R28); the hash context but for HASH commands other than
`hash.digest` (R105); the sequence but for `keccak.step`; and never the parameters or the host's own. -/
def Obligations.CommandsKeepOtherRegisters : Prop :=
  ∀ (i : Instr) (s t : State), exec i s = .next t →
    t.a = s.a ∧ t.b = s.b ∧ t.len = s.len
      ∧ t.written.a = s.written.a ∧ t.written.b = s.written.b ∧ t.written.len = s.written.len
      ∧ (isBigint i = false → t.ret = s.ret ∧ t.written.ret = s.written.ret)
      ∧ (makesDigest i = false → t.dout = s.dout ∧ t.written.dout = s.written.dout)
      ∧ (isHash i = false → t.ctx = s.ctx) ∧ (∀ v, i = .hashDigest v → t.ctx = s.ctx)
      ∧ (isStep i = false → t.seq = s.seq)
      ∧ t.params = s.params ∧ t.pending = s.pending ∧ t.hostData = s.hostData
end

