-- ==== Sys2Proof/Laws/State.lean ====
section
/-! SUPPORT. What each update of the state makes of each field: one lemma per field per update. -/

namespace Sys2Proof.Machine

variable (s : State)

/-! ### `State.useDraws` -/

@[simp] theorem State.useDraws_params (n : Nat) : (s.useDraws n).params = s.params := rfl
@[simp] theorem State.useDraws_a (n : Nat) : (s.useDraws n).a = s.a := rfl
@[simp] theorem State.useDraws_b (n : Nat) : (s.useDraws n).b = s.b := rfl
@[simp] theorem State.useDraws_len (n : Nat) : (s.useDraws n).len = s.len := rfl
@[simp] theorem State.useDraws_ret (n : Nat) : (s.useDraws n).ret = s.ret := rfl
@[simp] theorem State.useDraws_dout (n : Nat) : (s.useDraws n).dout = s.dout := rfl
@[simp] theorem State.useDraws_written (n : Nat) : (s.useDraws n).written = s.written := rfl
@[simp] theorem State.useDraws_fault (n : Nat) : (s.useDraws n).fault = s.fault := rfl
@[simp] theorem State.useDraws_faultInfo (n : Nat) : (s.useDraws n).faultInfo = s.faultInfo := rfl
@[simp] theorem State.useDraws_ctx (n : Nat) : (s.useDraws n).ctx = s.ctx := rfl
@[simp] theorem State.useDraws_seq (n : Nat) : (s.useDraws n).seq = s.seq := rfl
@[simp] theorem State.useDraws_mem (n : Nat) : (s.useDraws n).mem = s.mem := rfl
@[simp] theorem State.useDraws_pending (n : Nat) : (s.useDraws n).pending = s.pending := rfl
@[simp] theorem State.useDraws_hostData (n : Nat) : (s.useDraws n).hostData = s.hostData := rfl
@[simp] theorem State.useDraws_draws (n : Nat) : (s.useDraws n).draws = s.draws + n := rfl

/-! ### `State.setMem` -/

@[simp] theorem State.setMem_params (m : Mem) : (s.setMem m).params = s.params := rfl
@[simp] theorem State.setMem_a (m : Mem) : (s.setMem m).a = s.a := rfl
@[simp] theorem State.setMem_b (m : Mem) : (s.setMem m).b = s.b := rfl
@[simp] theorem State.setMem_len (m : Mem) : (s.setMem m).len = s.len := rfl
@[simp] theorem State.setMem_ret (m : Mem) : (s.setMem m).ret = s.ret := rfl
@[simp] theorem State.setMem_dout (m : Mem) : (s.setMem m).dout = s.dout := rfl
@[simp] theorem State.setMem_written (m : Mem) : (s.setMem m).written = s.written := rfl
@[simp] theorem State.setMem_fault (m : Mem) : (s.setMem m).fault = s.fault := rfl
@[simp] theorem State.setMem_faultInfo (m : Mem) : (s.setMem m).faultInfo = s.faultInfo := rfl
@[simp] theorem State.setMem_ctx (m : Mem) : (s.setMem m).ctx = s.ctx := rfl
@[simp] theorem State.setMem_seq (m : Mem) : (s.setMem m).seq = s.seq := rfl
@[simp] theorem State.setMem_mem (m : Mem) : (s.setMem m).mem = m := rfl
@[simp] theorem State.setMem_pending (m : Mem) : (s.setMem m).pending = s.pending := rfl
@[simp] theorem State.setMem_hostData (m : Mem) : (s.setMem m).hostData = s.hostData := rfl
@[simp] theorem State.setMem_draws (m : Mem) : (s.setMem m).draws = s.draws := rfl

/-! ### `State.setCtx` -/

@[simp] theorem State.setCtx_params (t : HashCtx) : (s.setCtx t).params = s.params := rfl
@[simp] theorem State.setCtx_a (t : HashCtx) : (s.setCtx t).a = s.a := rfl
@[simp] theorem State.setCtx_b (t : HashCtx) : (s.setCtx t).b = s.b := rfl
@[simp] theorem State.setCtx_len (t : HashCtx) : (s.setCtx t).len = s.len := rfl
@[simp] theorem State.setCtx_ret (t : HashCtx) : (s.setCtx t).ret = s.ret := rfl
@[simp] theorem State.setCtx_dout (t : HashCtx) : (s.setCtx t).dout = s.dout := rfl
@[simp] theorem State.setCtx_written (t : HashCtx) : (s.setCtx t).written = s.written := rfl
@[simp] theorem State.setCtx_fault (t : HashCtx) : (s.setCtx t).fault = s.fault := rfl
@[simp] theorem State.setCtx_faultInfo (t : HashCtx) : (s.setCtx t).faultInfo = s.faultInfo := rfl
@[simp] theorem State.setCtx_ctx (t : HashCtx) : (s.setCtx t).ctx = t := rfl
@[simp] theorem State.setCtx_seq (t : HashCtx) : (s.setCtx t).seq = s.seq := rfl
@[simp] theorem State.setCtx_mem (t : HashCtx) : (s.setCtx t).mem = s.mem := rfl
@[simp] theorem State.setCtx_pending (t : HashCtx) : (s.setCtx t).pending = s.pending := rfl
@[simp] theorem State.setCtx_hostData (t : HashCtx) : (s.setCtx t).hostData = s.hostData := rfl
@[simp] theorem State.setCtx_draws (t : HashCtx) : (s.setCtx t).draws = s.draws := rfl

/-! ### `State.setSeq` -/

@[simp] theorem State.setSeq_params (q : SeqState) : (s.setSeq q).params = s.params := rfl
@[simp] theorem State.setSeq_a (q : SeqState) : (s.setSeq q).a = s.a := rfl
@[simp] theorem State.setSeq_b (q : SeqState) : (s.setSeq q).b = s.b := rfl
@[simp] theorem State.setSeq_len (q : SeqState) : (s.setSeq q).len = s.len := rfl
@[simp] theorem State.setSeq_ret (q : SeqState) : (s.setSeq q).ret = s.ret := rfl
@[simp] theorem State.setSeq_dout (q : SeqState) : (s.setSeq q).dout = s.dout := rfl
@[simp] theorem State.setSeq_written (q : SeqState) : (s.setSeq q).written = s.written := rfl
@[simp] theorem State.setSeq_fault (q : SeqState) : (s.setSeq q).fault = s.fault := rfl
@[simp] theorem State.setSeq_faultInfo (q : SeqState) : (s.setSeq q).faultInfo = s.faultInfo := rfl
@[simp] theorem State.setSeq_ctx (q : SeqState) : (s.setSeq q).ctx = s.ctx := rfl
@[simp] theorem State.setSeq_seq (q : SeqState) : (s.setSeq q).seq = q := rfl
@[simp] theorem State.setSeq_mem (q : SeqState) : (s.setSeq q).mem = s.mem := rfl
@[simp] theorem State.setSeq_pending (q : SeqState) : (s.setSeq q).pending = s.pending := rfl
@[simp] theorem State.setSeq_hostData (q : SeqState) : (s.setSeq q).hostData = s.hostData := rfl
@[simp] theorem State.setSeq_draws (q : SeqState) : (s.setSeq q).draws = s.draws := rfl

/-! ### `State.setRet` -/

@[simp] theorem State.setRet_params (bit : Bool) : (s.setRet bit).params = s.params := rfl
@[simp] theorem State.setRet_a (bit : Bool) : (s.setRet bit).a = s.a := rfl
@[simp] theorem State.setRet_b (bit : Bool) : (s.setRet bit).b = s.b := rfl
@[simp] theorem State.setRet_len (bit : Bool) : (s.setRet bit).len = s.len := rfl
@[simp] theorem State.setRet_ret (bit : Bool) : (s.setRet bit).ret = (if bit then 1 else 0) := rfl
@[simp] theorem State.setRet_dout (bit : Bool) : (s.setRet bit).dout = s.dout := rfl
@[simp] theorem State.setRet_written (bit : Bool) : (s.setRet bit).written = { s.written with ret := true } := rfl
@[simp] theorem State.setRet_fault (bit : Bool) : (s.setRet bit).fault = s.fault := rfl
@[simp] theorem State.setRet_faultInfo (bit : Bool) : (s.setRet bit).faultInfo = s.faultInfo := rfl
@[simp] theorem State.setRet_ctx (bit : Bool) : (s.setRet bit).ctx = s.ctx := rfl
@[simp] theorem State.setRet_seq (bit : Bool) : (s.setRet bit).seq = s.seq := rfl
@[simp] theorem State.setRet_mem (bit : Bool) : (s.setRet bit).mem = s.mem := rfl
@[simp] theorem State.setRet_pending (bit : Bool) : (s.setRet bit).pending = s.pending := rfl
@[simp] theorem State.setRet_hostData (bit : Bool) : (s.setRet bit).hostData = s.hostData := rfl
@[simp] theorem State.setRet_draws (bit : Bool) : (s.setRet bit).draws = s.draws := rfl

/-! ### `State.setDout` -/

@[simp] theorem State.setDout_params (d : Vector Word 8) : (s.setDout d).params = s.params := rfl
@[simp] theorem State.setDout_a (d : Vector Word 8) : (s.setDout d).a = s.a := rfl
@[simp] theorem State.setDout_b (d : Vector Word 8) : (s.setDout d).b = s.b := rfl
@[simp] theorem State.setDout_len (d : Vector Word 8) : (s.setDout d).len = s.len := rfl
@[simp] theorem State.setDout_ret (d : Vector Word 8) : (s.setDout d).ret = s.ret := rfl
@[simp] theorem State.setDout_dout (d : Vector Word 8) : (s.setDout d).dout = d := rfl
@[simp] theorem State.setDout_written (d : Vector Word 8) : (s.setDout d).written = { s.written with dout := true } := rfl
@[simp] theorem State.setDout_fault (d : Vector Word 8) : (s.setDout d).fault = s.fault := rfl
@[simp] theorem State.setDout_faultInfo (d : Vector Word 8) : (s.setDout d).faultInfo = s.faultInfo := rfl
@[simp] theorem State.setDout_ctx (d : Vector Word 8) : (s.setDout d).ctx = s.ctx := rfl
@[simp] theorem State.setDout_seq (d : Vector Word 8) : (s.setDout d).seq = s.seq := rfl
@[simp] theorem State.setDout_mem (d : Vector Word 8) : (s.setDout d).mem = s.mem := rfl
@[simp] theorem State.setDout_pending (d : Vector Word 8) : (s.setDout d).pending = s.pending := rfl
@[simp] theorem State.setDout_hostData (d : Vector Word 8) : (s.setDout d).hostData = s.hostData := rfl
@[simp] theorem State.setDout_draws (d : Vector Word 8) : (s.setDout d).draws = s.draws := rfl

/-! ### `State.setA` -/

@[simp] theorem State.setA_params (v : Word) : (s.setA v).params = s.params := rfl
@[simp] theorem State.setA_a (v : Word) : (s.setA v).a = v := rfl
@[simp] theorem State.setA_b (v : Word) : (s.setA v).b = s.b := rfl
@[simp] theorem State.setA_len (v : Word) : (s.setA v).len = s.len := rfl
@[simp] theorem State.setA_ret (v : Word) : (s.setA v).ret = s.ret := rfl
@[simp] theorem State.setA_dout (v : Word) : (s.setA v).dout = s.dout := rfl
@[simp] theorem State.setA_written (v : Word) : (s.setA v).written = { s.written with a := true } := rfl
@[simp] theorem State.setA_fault (v : Word) : (s.setA v).fault = s.fault := rfl
@[simp] theorem State.setA_faultInfo (v : Word) : (s.setA v).faultInfo = s.faultInfo := rfl
@[simp] theorem State.setA_ctx (v : Word) : (s.setA v).ctx = s.ctx := rfl
@[simp] theorem State.setA_seq (v : Word) : (s.setA v).seq = s.seq := rfl
@[simp] theorem State.setA_mem (v : Word) : (s.setA v).mem = s.mem := rfl
@[simp] theorem State.setA_pending (v : Word) : (s.setA v).pending = s.pending := rfl
@[simp] theorem State.setA_hostData (v : Word) : (s.setA v).hostData = s.hostData := rfl
@[simp] theorem State.setA_draws (v : Word) : (s.setA v).draws = s.draws := rfl

/-! ### `State.setB` -/

@[simp] theorem State.setB_params (v : Word) : (s.setB v).params = s.params := rfl
@[simp] theorem State.setB_a (v : Word) : (s.setB v).a = s.a := rfl
@[simp] theorem State.setB_b (v : Word) : (s.setB v).b = v := rfl
@[simp] theorem State.setB_len (v : Word) : (s.setB v).len = s.len := rfl
@[simp] theorem State.setB_ret (v : Word) : (s.setB v).ret = s.ret := rfl
@[simp] theorem State.setB_dout (v : Word) : (s.setB v).dout = s.dout := rfl
@[simp] theorem State.setB_written (v : Word) : (s.setB v).written = { s.written with b := true } := rfl
@[simp] theorem State.setB_fault (v : Word) : (s.setB v).fault = s.fault := rfl
@[simp] theorem State.setB_faultInfo (v : Word) : (s.setB v).faultInfo = s.faultInfo := rfl
@[simp] theorem State.setB_ctx (v : Word) : (s.setB v).ctx = s.ctx := rfl
@[simp] theorem State.setB_seq (v : Word) : (s.setB v).seq = s.seq := rfl
@[simp] theorem State.setB_mem (v : Word) : (s.setB v).mem = s.mem := rfl
@[simp] theorem State.setB_pending (v : Word) : (s.setB v).pending = s.pending := rfl
@[simp] theorem State.setB_hostData (v : Word) : (s.setB v).hostData = s.hostData := rfl
@[simp] theorem State.setB_draws (v : Word) : (s.setB v).draws = s.draws := rfl

/-! ### `State.setLen` -/

@[simp] theorem State.setLen_params (v : Word) : (s.setLen v).params = s.params := rfl
@[simp] theorem State.setLen_a (v : Word) : (s.setLen v).a = s.a := rfl
@[simp] theorem State.setLen_b (v : Word) : (s.setLen v).b = s.b := rfl
@[simp] theorem State.setLen_len (v : Word) : (s.setLen v).len = v := rfl
@[simp] theorem State.setLen_ret (v : Word) : (s.setLen v).ret = s.ret := rfl
@[simp] theorem State.setLen_dout (v : Word) : (s.setLen v).dout = s.dout := rfl
@[simp] theorem State.setLen_written (v : Word) : (s.setLen v).written = { s.written with len := true } := rfl
@[simp] theorem State.setLen_fault (v : Word) : (s.setLen v).fault = s.fault := rfl
@[simp] theorem State.setLen_faultInfo (v : Word) : (s.setLen v).faultInfo = s.faultInfo := rfl
@[simp] theorem State.setLen_ctx (v : Word) : (s.setLen v).ctx = s.ctx := rfl
@[simp] theorem State.setLen_seq (v : Word) : (s.setLen v).seq = s.seq := rfl
@[simp] theorem State.setLen_mem (v : Word) : (s.setLen v).mem = s.mem := rfl
@[simp] theorem State.setLen_pending (v : Word) : (s.setLen v).pending = s.pending := rfl
@[simp] theorem State.setLen_hostData (v : Word) : (s.setLen v).hostData = s.hostData := rfl
@[simp] theorem State.setLen_draws (v : Word) : (s.setLen v).draws = s.draws := rfl

/-! ### `State.setHostData` -/

@[simp] theorem State.setHostData_params (d : List Byte) : (s.setHostData d).params = s.params := rfl
@[simp] theorem State.setHostData_a (d : List Byte) : (s.setHostData d).a = s.a := rfl
@[simp] theorem State.setHostData_b (d : List Byte) : (s.setHostData d).b = s.b := rfl
@[simp] theorem State.setHostData_len (d : List Byte) : (s.setHostData d).len = s.len := rfl
@[simp] theorem State.setHostData_ret (d : List Byte) : (s.setHostData d).ret = s.ret := rfl
@[simp] theorem State.setHostData_dout (d : List Byte) : (s.setHostData d).dout = s.dout := rfl
@[simp] theorem State.setHostData_written (d : List Byte) : (s.setHostData d).written = s.written := rfl
@[simp] theorem State.setHostData_fault (d : List Byte) : (s.setHostData d).fault = s.fault := rfl
@[simp] theorem State.setHostData_faultInfo (d : List Byte) : (s.setHostData d).faultInfo = s.faultInfo := rfl
@[simp] theorem State.setHostData_ctx (d : List Byte) : (s.setHostData d).ctx = s.ctx := rfl
@[simp] theorem State.setHostData_seq (d : List Byte) : (s.setHostData d).seq = s.seq := rfl
@[simp] theorem State.setHostData_mem (d : List Byte) : (s.setHostData d).mem = s.mem := rfl
@[simp] theorem State.setHostData_pending (d : List Byte) : (s.setHostData d).pending = s.pending := rfl
@[simp] theorem State.setHostData_hostData (d : List Byte) : (s.setHostData d).hostData = d := rfl
@[simp] theorem State.setHostData_draws (d : List Byte) : (s.setHostData d).draws = s.draws := rfl

/-! ### `State.setPending` -/

@[simp] theorem State.setPending_params (l : List HostAction) : (s.setPending l).params = s.params := rfl
@[simp] theorem State.setPending_a (l : List HostAction) : (s.setPending l).a = s.a := rfl
@[simp] theorem State.setPending_b (l : List HostAction) : (s.setPending l).b = s.b := rfl
@[simp] theorem State.setPending_len (l : List HostAction) : (s.setPending l).len = s.len := rfl
@[simp] theorem State.setPending_ret (l : List HostAction) : (s.setPending l).ret = s.ret := rfl
@[simp] theorem State.setPending_dout (l : List HostAction) : (s.setPending l).dout = s.dout := rfl
@[simp] theorem State.setPending_written (l : List HostAction) : (s.setPending l).written = s.written := rfl
@[simp] theorem State.setPending_fault (l : List HostAction) : (s.setPending l).fault = s.fault := rfl
@[simp] theorem State.setPending_faultInfo (l : List HostAction) : (s.setPending l).faultInfo = s.faultInfo := rfl
@[simp] theorem State.setPending_ctx (l : List HostAction) : (s.setPending l).ctx = s.ctx := rfl
@[simp] theorem State.setPending_seq (l : List HostAction) : (s.setPending l).seq = s.seq := rfl
@[simp] theorem State.setPending_mem (l : List HostAction) : (s.setPending l).mem = s.mem := rfl
@[simp] theorem State.setPending_pending (l : List HostAction) : (s.setPending l).pending = l := rfl
@[simp] theorem State.setPending_hostData (l : List HostAction) : (s.setPending l).hostData = s.hostData := rfl
@[simp] theorem State.setPending_draws (l : List HostAction) : (s.setPending l).draws = s.draws := rfl

/-! ### `State.raise` -/

@[simp] theorem State.raise_params (f : FaultCode) (i : Word) : (s.raise f i).params = s.params := rfl
@[simp] theorem State.raise_a (f : FaultCode) (i : Word) : (s.raise f i).a = s.a := rfl
@[simp] theorem State.raise_b (f : FaultCode) (i : Word) : (s.raise f i).b = s.b := rfl
@[simp] theorem State.raise_len (f : FaultCode) (i : Word) : (s.raise f i).len = s.len := rfl
@[simp] theorem State.raise_ret (f : FaultCode) (i : Word) : (s.raise f i).ret = s.ret := rfl
@[simp] theorem State.raise_dout (f : FaultCode) (i : Word) : (s.raise f i).dout = s.dout := rfl
@[simp] theorem State.raise_written (f : FaultCode) (i : Word) : (s.raise f i).written = s.written := rfl
@[simp] theorem State.raise_fault (f : FaultCode) (i : Word) : (s.raise f i).fault = some f := rfl
@[simp] theorem State.raise_faultInfo (f : FaultCode) (i : Word) : (s.raise f i).faultInfo = i := rfl
@[simp] theorem State.raise_ctx (f : FaultCode) (i : Word) : (s.raise f i).ctx = s.ctx := rfl
@[simp] theorem State.raise_seq (f : FaultCode) (i : Word) : (s.raise f i).seq = s.seq := rfl
@[simp] theorem State.raise_mem (f : FaultCode) (i : Word) : (s.raise f i).mem = s.mem := rfl
@[simp] theorem State.raise_pending (f : FaultCode) (i : Word) : (s.raise f i).pending = s.pending := rfl
@[simp] theorem State.raise_hostData (f : FaultCode) (i : Word) : (s.raise f i).hostData = s.hostData := rfl
@[simp] theorem State.raise_draws (f : FaultCode) (i : Word) : (s.raise f i).draws = s.draws := rfl

/-! ### `State.redrawScratch` -/

@[simp] theorem State.redrawScratch_params : s.redrawScratch.params = s.params := rfl
@[simp] theorem State.redrawScratch_a : s.redrawScratch.a = s.a := rfl
@[simp] theorem State.redrawScratch_b : s.redrawScratch.b = s.b := rfl
@[simp] theorem State.redrawScratch_len : s.redrawScratch.len = s.len := rfl
@[simp] theorem State.redrawScratch_ret : s.redrawScratch.ret = s.ret := rfl
@[simp] theorem State.redrawScratch_dout : s.redrawScratch.dout = s.dout := rfl
@[simp] theorem State.redrawScratch_written : s.redrawScratch.written = s.written := rfl
@[simp] theorem State.redrawScratch_fault : s.redrawScratch.fault = s.fault := rfl
@[simp] theorem State.redrawScratch_faultInfo : s.redrawScratch.faultInfo = s.faultInfo := rfl
@[simp] theorem State.redrawScratch_ctx : s.redrawScratch.ctx = { s.ctx with scratch := drawLanes s.draws s.params.scratchLanes } := rfl
@[simp] theorem State.redrawScratch_seq : s.redrawScratch.seq = s.seq := rfl
@[simp] theorem State.redrawScratch_mem : s.redrawScratch.mem = s.mem := rfl
@[simp] theorem State.redrawScratch_pending : s.redrawScratch.pending = s.pending := rfl
@[simp] theorem State.redrawScratch_hostData : s.redrawScratch.hostData = s.hostData := rfl
@[simp] theorem State.redrawScratch_draws : s.redrawScratch.draws = s.draws + s.params.scratchLanes := rfl

/-! ### `State.resetBlock` -/

@[simp] theorem State.resetBlock_params : s.resetBlock.params = s.params := rfl
@[simp] theorem State.resetBlock_a : s.resetBlock.a = 0 := rfl
@[simp] theorem State.resetBlock_b : s.resetBlock.b = 0 := rfl
@[simp] theorem State.resetBlock_len : s.resetBlock.len = 0 := rfl
@[simp] theorem State.resetBlock_ret : s.resetBlock.ret = 0 := rfl
@[simp] theorem State.resetBlock_dout : s.resetBlock.dout = Vector.replicate 8 0 := rfl
@[simp] theorem State.resetBlock_written : s.resetBlock.written = Written.initial := rfl
@[simp] theorem State.resetBlock_fault : s.resetBlock.fault = none := rfl
@[simp] theorem State.resetBlock_faultInfo : s.resetBlock.faultInfo = 0 := rfl
@[simp] theorem State.resetBlock_ctx : s.resetBlock.ctx = HashCtx.initial s.params.scratchLanes := rfl
@[simp] theorem State.resetBlock_seq : s.resetBlock.seq = SeqState.initial := rfl
@[simp] theorem State.resetBlock_mem : s.resetBlock.mem = s.mem := rfl
@[simp] theorem State.resetBlock_pending : s.resetBlock.pending = s.pending := rfl
@[simp] theorem State.resetBlock_hostData : s.resetBlock.hostData = s.hostData := rfl
@[simp] theorem State.resetBlock_draws : s.resetBlock.draws = s.draws := rfl

end Sys2Proof.Machine
end

