-- ==== Sys2Proof/Laws/Command.lean ====
section
/-! SUPPORT. What a command can do: the conditions in their order, then the effect; when the conditions of each form
all hold. -/

namespace Sys2Proof.Machine

/-! ### The shared frame of a command -/

@[simp] theorem guarded_nil (s e : State) : guarded s [] e = .next e := rfl

/-- The first condition decides (R126). -/
theorem guarded_cons (s : State) (c : Check) (cs : List Check) (e : State) :
    guarded s (c :: cs) e = if c.fails then .next (s.raise c.code c.info) else guarded s cs e := by
  unfold guarded firstFailure
  rw [List.find?_cons]
  cases c.fails <;> rfl

/-- Where no condition fails the command has its effect. -/
theorem guarded_of_pass {s e : State} {cs : List Check} (h : ∀ c ∈ cs, c.fails = false) :
    guarded s cs e = .next e := by
  induction cs with
  | nil => rfl
  | cons c cs ih =>
    rw [guarded_cons, h c (by simp)]
    exact ih fun d hd => h d (by simp [hd])

/-- All a command can do: raise the fault of a condition that fails, or have its effect. -/
theorem guarded_cases {s e t : State} {cs : List Check} (h : guarded s cs e = .next t) :
    (∃ c ∈ cs, c.fails = true ∧ t = s.raise c.code c.info) ∨ (∀ c ∈ cs, c.fails = false) ∧ t = e := by
  induction cs with
  | nil =>
    rw [guarded_nil] at h
    cases h
    exact .inr ⟨by simp, rfl⟩
  | cons c cs ih =>
    rw [guarded_cons] at h
    cases hc : c.fails with
    | true =>
      rw [hc] at h
      cases h
      exact .inl ⟨c, by simp, hc, rfl⟩
    | false =>
      rw [hc] at h
      rcases ih h with ⟨d, hd, hf, ht⟩ | ⟨hp, ht⟩
      · exact .inl ⟨d, by simp [hd], hf, ht⟩
      · exact .inr ⟨by simpa [hc] using hp, ht⟩

/-- A command always answers a next state. -/
theorem guarded_next (s : State) (cs : List Check) (e : State) : ∃ t, guarded s cs e = .next t := by
  unfold guarded
  split <;> exact ⟨_, rfl⟩

/-! ### When the conditions of each form hold -/

theorem sequenceCheck_pass (s : State) (w : Word) : (sequenceCheck s w).fails = false ↔ s.seq.active = false :=
  Iff.rfl

theorem contextCheck_pass (s : State) (w : Word) : (contextCheck s w).fails = false ↔ s.ctx.phase = .active := by
  simp [contextCheck]

theorem inputCheck_pass (s : State) : (inputCheck s).fails = false ↔ InputOk s := by
  simp only [inputCheck, InputOk, Bool.and_eq_false_iff, decide_eq_false_iff_not, Bool.not_eq_false']
  exact imp_iff_not_or.symm

/-- The checks on a state pointer pass exactly on a good pointer. -/
theorem bufferChecks_pass (s : State) : (∀ c ∈ bufferChecks s, c.fails = false) ↔ PointerOk s.params s.a := by
  simp [bufferChecks, PointerOk]

theorem keccakChecks_pass (s : State) (w : Word) :
    (∀ c ∈ keccakChecks s w, c.fails = false) ↔ KeccakReady s := by
  rw [keccakChecks, List.forall_mem_cons, bufferChecks_pass]
  exact Iff.rfl

theorem stepChecks_pass (s : State) (k : BitVec 10) (w : Word) :
    (∀ c ∈ stepChecks s k w, c.fails = false) ↔ StepReady k s := by
  simp [stepChecks, StepReady, and_assoc]

/-- The checks of the BIGINT frame pass exactly on ready operands. -/
theorem bigintChecks_pass (s : State) (writes : Bool) (w : Word) :
    (∀ c ∈ bigintChecks s writes w, c.fails = false) ↔ BigintReady s writes := by
  simp only [bigintChecks, BigintReady, List.forall_mem_cons, needsCopy, sequenceCheck, Bool.and_eq_false_iff,
    Bool.or_eq_false_iff, decide_eq_false_iff_not, Bool.not_eq_false', List.not_mem_nil, false_imp_iff, implies_true,
    and_true, ne_eq, Decidable.not_not, BitVec.not_lt]
  cases writes <;> simp [imp_iff_not_or, and_assoc]

end Sys2Proof.Machine
end

