-- ==== Sys2Proof/Laws/Memory.lean ====
section
/-! SUPPORT. Memory: reading after writing, what a write leaves alone, and the canonical form every operation keeps. -/

namespace Sys2Proof.Machine

/-! ### One byte -/

@[simp] theorem Mem.byte_nil (x : Nat) : Mem.byte [] x = Mem.unlisted := rfl

theorem Mem.byte_cons (k : Nat) (v : Byte) (m : Mem) (x : Nat) :
    Mem.byte ((k, v) :: m) x = if x = k then v else m.byte x := rfl

/-- An address that no entry has reads as unlisted. -/
theorem Mem.byte_of_forall_ne {m : Mem} {x : Nat} (h : ∀ c ∈ m, c.1 ≠ x) : m.byte x = Mem.unlisted := by
  induction m with
  | nil => rfl
  | cons c m ih =>
    obtain ⟨k, v⟩ := c
    have hk : k ≠ x := h (k, v) (by simp)
    rw [Mem.byte_cons, if_neg (Ne.symm hk), ih fun c hc => h c (by simp [hc])]

theorem Mem.byte_consByte {m : Mem} {x : Nat} (v : Byte) (h : ∀ c ∈ m, c.1 ≠ x) (y : Nat) :
    (Mem.consByte x v m).byte y = if y = x then v else m.byte y := by
  unfold Mem.consByte
  split
  · rename_i hv
    split
    · rename_i hy; subst hy; rw [Mem.byte_of_forall_ne h, hv]
    · rfl
  · rfl

theorem Mem.mem_consByte {m : Mem} {x : Nat} {v : Byte} {c : Host.Cell} (h : c ∈ Mem.consByte x v m) :
    c.1 = x ∧ c.2 ≠ Mem.unlisted ∨ c ∈ m := by
  unfold Mem.consByte at h
  split at h
  · exact .inr h
  · rename_i hv
    rcases List.mem_cons.mp h with rfl | h
    · exact .inl ⟨rfl, hv⟩
    · exact .inr h

theorem Mem.mem_setByte {m : Mem} {x : Nat} {v : Byte} {c : Host.Cell} (h : c ∈ m.setByte x v) :
    c.1 = x ∧ c.2 ≠ Mem.unlisted ∨ c ∈ m := by
  induction m with
  | nil => simpa using Mem.mem_consByte h
  | cons d m ih =>
    obtain ⟨k, u⟩ := d
    simp only [Mem.setByte] at h
    split at h
    · exact Mem.mem_consByte h
    · split at h
      · exact (Mem.mem_consByte h).imp_right (List.mem_cons_of_mem _)
      · rcases List.mem_cons.mp h with rfl | h
        · exact .inr (by simp)
        · exact (ih h).imp_right (List.mem_cons_of_mem _)

theorem Mem.wf_nil : Mem.wf [] := by simp [Mem.wf]

theorem Mem.wf_tail {c : Host.Cell} {m : Mem} (h : Mem.wf (c :: m)) : Mem.wf m :=
  ⟨(List.pairwise_cons.mp h.1).2, fun d hd => h.2 d (by simp [hd])⟩

theorem Mem.lt_of_wf_cons {c d : Host.Cell} {m : Mem} (h : Mem.wf (c :: m)) (hd : d ∈ m) : c.1 < d.1 :=
  (List.pairwise_cons.mp h.1).1 d hd

theorem Mem.wf_consByte {m : Mem} {x : Nat} {v : Byte} (hm : m.wf) (hx : x < addressSpace)
    (h : ∀ c ∈ m, x < c.1) : (Mem.consByte x v m).wf := by
  unfold Mem.consByte
  split
  · exact hm
  · rename_i hv
    refine ⟨List.pairwise_cons.mpr ⟨fun c hc => h c hc, hm.1⟩, ?_⟩
    intro c hc
    rcases List.mem_cons.mp hc with rfl | hc
    · exact ⟨hx, hv⟩
    · exact hm.2 c hc

/-- A write of one byte keeps the canonical form. -/
theorem Mem.wf_setByte {m : Mem} (hm : m.wf) {x : Nat} (hx : x < addressSpace) (v : Byte) : (m.setByte x v).wf := by
  induction m with
  | nil => exact Mem.wf_consByte hm hx (by simp)
  | cons c m ih =>
    obtain ⟨k, u⟩ := c
    simp only [Mem.setByte]
    split
    · rename_i hlt
      refine Mem.wf_consByte hm hx fun d hd => ?_
      rcases List.mem_cons.mp hd with rfl | hd
      · exact hlt
      · exact lt_trans hlt (Mem.lt_of_wf_cons hm hd)
    · split
      · rename_i hk
        subst hk
        exact Mem.wf_consByte (Mem.wf_tail hm) hx fun d hd => Mem.lt_of_wf_cons hm hd
      · rename_i hge hne
        refine ⟨List.pairwise_cons.mpr ⟨fun d hd => ?_, (ih (Mem.wf_tail hm)).1⟩, fun d hd => ?_⟩
        · rcases Mem.mem_setByte hd with ⟨hd, -⟩ | hd
          · show k < d.1
            omega
          · exact Mem.lt_of_wf_cons hm hd
        · rcases List.mem_cons.mp hd with rfl | hd
          · exact hm.2 _ (by simp)
          · exact (ih (Mem.wf_tail hm)).2 d hd

/-- A read after a write of one byte. -/
theorem Mem.byte_setByte {m : Mem} (hm : m.wf) (x : Nat) (v : Byte) (y : Nat) :
    (m.setByte x v).byte y = if y = x then v else m.byte y := by
  induction m with
  | nil => exact Mem.byte_consByte v (by simp) y
  | cons c m ih =>
    obtain ⟨k, u⟩ := c
    simp only [Mem.setByte]
    split
    · rename_i hlt
      refine Mem.byte_consByte v (fun d hd => ?_) y
      rcases List.mem_cons.mp hd with rfl | hd
      · exact Nat.ne_of_gt hlt
      · exact Nat.ne_of_gt (lt_trans hlt (Mem.lt_of_wf_cons hm hd))
    · split
      · rename_i hk
        subst hk
        rw [Mem.byte_consByte v (fun d hd => Nat.ne_of_gt (Mem.lt_of_wf_cons hm hd)), Mem.byte_cons]
        split <;> rfl
      · rename_i hge hne
        rw [Mem.byte_cons, Mem.byte_cons, ih (Mem.wf_tail hm)]
        split
        · rename_i hy; rw [if_neg (by omega)]
        · rfl

/-! ### Byte strings -/

@[simp] theorem Mem.length_bytes (m : Mem) (p n : Nat) : (m.bytes p n).length = n := by
  induction n generalizing p with
  | zero => rfl
  | succ n ih => simp [Mem.bytes, ih]

@[simp] theorem Mem.getElem_bytes (m : Mem) (p n i : Nat) (h : i < (m.bytes p n).length) :
    (m.bytes p n)[i] = m.byte (p + i) := by
  induction n generalizing p i with
  | zero => simp at h
  | succ n ih =>
    cases i with
    | zero => rfl
    | succ i =>
      simp only [Mem.bytes, List.getElem_cons_succ]
      rw [ih]; congr 1; omega

/-- A byte string depends on its own bytes alone. -/
theorem Mem.bytes_congr {m m' : Mem} {p n : Nat} (h : ∀ x, p ≤ x → x < p + n → m.byte x = m'.byte x) :
    m.bytes p n = m'.bytes p n := by
  refine List.ext_getElem (by simp) fun i hi _ => ?_
  rw [Mem.getElem_bytes, Mem.getElem_bytes]
  rw [Mem.length_bytes] at hi
  exact h _ (by omega) (by omega)

/-- A byte string in two parts. -/
theorem Mem.bytes_add (m : Mem) (p n k : Nat) : m.bytes p (n + k) = m.bytes p n ++ m.bytes (p + n) k := by
  induction n generalizing p with
  | zero => simp [Mem.bytes]
  | succ n ih =>
    rw [Nat.succ_add]
    simp only [Mem.bytes, List.cons_append, ih]
    rw [Nat.add_assoc p 1 n, Nat.add_comm 1 n]

/-- A write of bytes keeps the canonical form. -/
theorem Mem.wf_writeBytes {m : Mem} (hm : m.wf) {p : Nat} {vs : List Byte} (h : p + vs.length ≤ addressSpace) :
    (m.writeBytes p vs).wf := by
  induction vs generalizing m p with
  | nil => exact hm
  | cons v vs ih =>
    simp only [List.length_cons] at h
    exact ih (Mem.wf_setByte hm (by omega) v) (by omega)

/-- A read of one byte after a write of bytes that exist. -/
theorem Mem.byte_writeBytes {m : Mem} (hm : m.wf) {p : Nat} {vs : List Byte} (h : p + vs.length ≤ addressSpace)
    (x : Nat) :
    (m.writeBytes p vs).byte x = if p ≤ x then (vs[x - p]?).getD (m.byte x) else m.byte x := by
  induction vs generalizing m p with
  | nil => simp [Mem.writeBytes]
  | cons v vs ih =>
    simp only [List.length_cons] at h
    rw [Mem.writeBytes, ih (Mem.wf_setByte hm (by omega) v) (by omega)]
    rw [Mem.byte_setByte hm]
    by_cases hx : x = p
    · subst hx
      simp
    · by_cases hle : p ≤ x
      · obtain ⟨d, rfl⟩ : ∃ d, x = p + 1 + d := ⟨x - p - 1, by omega⟩
        rw [if_pos (by omega), if_pos hle, if_neg hx, show p + 1 + d - (p + 1) = d by omega,
          show p + 1 + d - p = d + 1 by omega, List.getElem?_cons_succ]
      · rw [if_neg (by omega), if_neg hle, if_neg hx]

/-- A write of bytes leaves every other byte alone. -/
theorem Mem.byte_writeBytes_of_outside {m : Mem} (hm : m.wf) {p : Nat} {vs : List Byte}
    (h : p + vs.length ≤ addressSpace) {x : Nat} (hx : x < p ∨ p + vs.length ≤ x) :
    (m.writeBytes p vs).byte x = m.byte x := by
  rw [Mem.byte_writeBytes hm h]
  split
  · rw [List.getElem?_eq_none (by omega)]; rfl
  · rfl

/-- The bytes written, read one by one. -/
theorem Mem.byte_writeBytes_of_inside {m : Mem} (hm : m.wf) {p : Nat} {vs : List Byte}
    (h : p + vs.length ≤ addressSpace) {i : Nat} (hi : i < vs.length) :
    (m.writeBytes p vs).byte (p + i) = vs[i] := by
  rw [Mem.byte_writeBytes hm h, if_pos (by omega), show p + i - p = i by omega, List.getElem?_eq_getElem hi]; rfl

/-- A read of some of the bytes just written. -/
theorem Mem.bytes_writeBytes_slice {m : Mem} (hm : m.wf) {p : Nat} {vs : List Byte}
    (h : p + vs.length ≤ addressSpace) {i n : Nat} (hi : i + n ≤ vs.length) :
    (m.writeBytes p vs).bytes (p + i) n = (vs.drop i).take n := by
  refine List.ext_getElem (by simp; omega) fun j hj _ => ?_
  rw [Mem.length_bytes] at hj
  rw [Mem.getElem_bytes, Nat.add_assoc, Mem.byte_writeBytes_of_inside hm h (by omega)]
  simp

/-- A read of the bytes just written. -/
theorem Mem.bytes_writeBytes_same {m : Mem} (hm : m.wf) {p : Nat} {vs : List Byte}
    (h : p + vs.length ≤ addressSpace) : (m.writeBytes p vs).bytes p vs.length = vs := by
  have := Mem.bytes_writeBytes_slice hm h (i := 0) (n := vs.length) (by omega)
  simpa using this

/-- A read of bytes that a write did not touch. -/
theorem Mem.bytes_writeBytes_of_disjoint {m : Mem} (hm : m.wf) {p : Nat} {vs : List Byte}
    (h : p + vs.length ≤ addressSpace) {q n : Nat} (hd : q + n ≤ p ∨ p + vs.length ≤ q) :
    (m.writeBytes p vs).bytes q n = m.bytes q n :=
  Mem.bytes_congr fun _ h1 h2 => Mem.byte_writeBytes_of_outside hm h (by omega)

/-! ### Integers -/

@[simp] theorem length_natToBytes (n v : Nat) : (natToBytes n v).length = n := by
  induction n generalizing v with
  | zero => rfl
  | succ n ih => simp [natToBytes, ih]

/-- The bytes of an integer, read back. -/
theorem bytesToNat_natToBytes (n v : Nat) : bytesToNat (natToBytes n v) = v % 256 ^ n := by
  induction n generalizing v with
  | zero => simp [natToBytes, bytesToNat, Nat.mod_one]
  | succ n ih =>
    rw [natToBytes, bytesToNat, ih, BitVec.toNat_ofNat, Nat.pow_succ' (n := n), Nat.mod_mul (x := v) (a := 256)]

theorem bytesToNat_lt (vs : List Byte) : bytesToNat vs < 256 ^ vs.length := by
  induction vs with
  | nil => simp [bytesToNat]
  | cons v vs ih =>
    rw [bytesToNat, List.length_cons, Nat.pow_succ']
    have := v.isLt
    omega

/-- The integer of a byte string, written as bytes again. -/
theorem natToBytes_bytesToNat (vs : List Byte) : natToBytes vs.length (bytesToNat vs) = vs := by
  induction vs with
  | nil => rfl
  | cons v vs ih =>
    have hv := v.isLt
    rw [bytesToNat, List.length_cons, natToBytes]
    congr 1
    · apply BitVec.eq_of_toNat_eq
      rw [BitVec.toNat_ofNat]
      omega
    · rw [show (v.toNat + 256 * bytesToNat vs) / 256 = bytesToNat vs by omega, ih]

theorem bytesToNat_append (vs us : List Byte) :
    bytesToNat (vs ++ us) = bytesToNat vs + 256 ^ vs.length * bytesToNat us := by
  induction vs with
  | nil => simp [bytesToNat]
  | cons v vs ih =>
    simp only [List.cons_append, bytesToNat, ih, List.length_cons, Nat.pow_succ']
    ring

theorem Mem.readNat_lt (m : Mem) (p n : Nat) : m.readNat p n < 256 ^ n := by
  have := bytesToNat_lt (m.bytes p n)
  rwa [Mem.length_bytes] at this

/-- An integer read in two parts, the first part less significant (R44). -/
theorem Mem.readNat_add (m : Mem) (p n k : Nat) :
    m.readNat p (n + k) = m.readNat p n + 256 ^ n * m.readNat (p + n) k := by
  rw [Mem.readNat, Mem.bytes_add, bytesToNat_append, Mem.length_bytes]; rfl

theorem Mem.readNat_congr {m m' : Mem} {p n : Nat} (h : ∀ x, p ≤ x → x < p + n → m.byte x = m'.byte x) :
    m.readNat p n = m'.readNat p n := by
  rw [Mem.readNat, Mem.bytes_congr h]; rfl

/-- A write of an integer keeps the canonical form. -/
theorem Mem.wf_writeNat {m : Mem} (hm : m.wf) {p n : Nat} (h : p + n ≤ addressSpace) (v : Nat) :
    (m.writeNat p n v).wf :=
  Mem.wf_writeBytes hm (by simpa using h)

/-- A read after a write of an integer. -/
theorem Mem.readNat_writeNat {m : Mem} (hm : m.wf) {p n : Nat} (h : p + n ≤ addressSpace) (v : Nat) :
    (m.writeNat p n v).readNat p n = v % 256 ^ n := by
  rw [Mem.readNat, Mem.writeNat]
  have := Mem.bytes_writeBytes_same hm (p := p) (vs := natToBytes n v) (by simpa using h)
  rw [length_natToBytes] at this
  rw [this, bytesToNat_natToBytes]

/-- A write of an integer leaves every other byte alone. -/
theorem Mem.byte_writeNat_of_outside {m : Mem} (hm : m.wf) {p n : Nat} (h : p + n ≤ addressSpace) (v : Nat)
    {x : Nat} (hx : x < p ∨ p + n ≤ x) : (m.writeNat p n v).byte x = m.byte x :=
  Mem.byte_writeBytes_of_outside hm (by simpa using h) (by simpa using hx)

/-- A read of an integer that a write did not touch. -/
theorem Mem.readNat_writeNat_of_disjoint {m : Mem} (hm : m.wf) {p n : Nat} (h : p + n ≤ addressSpace) (v : Nat)
    {q k : Nat} (hd : q + k ≤ p ∨ p + n ≤ q) : (m.writeNat p n v).readNat q k = m.readNat q k :=
  Mem.readNat_congr fun _ h1 h2 => Mem.byte_writeNat_of_outside hm h v (by omega)

/-- The copy of a byte string through an integer (R111). -/
theorem Mem.writeNat_readNat (m : Mem) (p q n : Nat) : m.writeNat p n (m.readNat q n) = m.writeBytes p (m.bytes q n) := by
  have := natToBytes_bytesToNat (m.bytes q n)
  rw [Mem.length_bytes] at this
  rw [Mem.writeNat, Mem.readNat, this]

theorem Mem.toNat_readU256 (m : Mem) (p : Nat) : (m.readU256 p).toNat = m.readNat p 32 := by
  have := m.readNat_lt p 32
  rw [Mem.readU256, BitVec.toNat_ofNat]
  exact Nat.mod_eq_of_lt (by norm_num at this ⊢; exact this)

/-! ### Lanes -/

/-- The bytes of lanes, one after the other. -/
def laneBytes (ls : List Lane) : List Byte :=
  ls.flatMap fun l => natToBytes 8 l.toNat

theorem Mem.writeLanes_eq (m : Mem) (p : Nat) (ls : List Lane) : m.writeLanes p ls = m.writeBytes p (laneBytes ls) := rfl

@[simp] theorem length_laneBytes (ls : List Lane) : (laneBytes ls).length = 8 * ls.length := by
  induction ls with
  | nil => rfl
  | cons l ls ih =>
    simp only [laneBytes] at ih
    simp only [laneBytes, List.flatMap_cons, List.length_append, length_natToBytes, ih, List.length_cons]
    omega

/-- The bytes of the lane with number `i`. -/
theorem laneBytes_slice (ls : List Lane) {i : Nat} (hi : i < ls.length) :
    ((laneBytes ls).drop (8 * i)).take 8 = natToBytes 8 ls[i].toNat := by
  induction ls generalizing i with
  | nil => simp at hi
  | cons l ls ih =>
    have hl : (natToBytes 8 l.toNat).length = 8 := length_natToBytes _ _
    cases i with
    | zero =>
      simp only [laneBytes, List.flatMap_cons, Nat.mul_zero, List.drop_zero, List.getElem_cons_zero]
      rw [List.take_append_of_le_length (by omega), List.take_of_length_le (by omega)]
    | succ i =>
      have := ih (i := i) (by simpa using hi)
      simp only [laneBytes, List.flatMap_cons, List.getElem_cons_succ] at this ⊢
      rw [← this, show 8 * (i + 1) = (natToBytes 8 l.toNat).length + 8 * i by omega, List.drop_append,
        List.drop_of_length_le (by omega), List.nil_append, Nat.add_sub_cancel_left]

/-- A write of lanes keeps the canonical form. -/
theorem Mem.wf_writeLanes {m : Mem} (hm : m.wf) {p : Nat} {ls : List Lane} (h : p + 8 * ls.length ≤ addressSpace) :
    (m.writeLanes p ls).wf := by
  rw [Mem.writeLanes_eq]
  exact Mem.wf_writeBytes hm (by simpa using h)

/-- A write of lanes leaves every other byte alone. -/
theorem Mem.byte_writeLanes_of_outside {m : Mem} (hm : m.wf) {p : Nat} {ls : List Lane}
    (h : p + 8 * ls.length ≤ addressSpace) {x : Nat} (hx : x < p ∨ p + 8 * ls.length ≤ x) :
    (m.writeLanes p ls).byte x = m.byte x := by
  rw [Mem.writeLanes_eq]
  exact Mem.byte_writeBytes_of_outside hm (by simpa using h) (by simpa using hx)

/-- The lanes just written, read one by one (R45). -/
theorem Mem.readLane_writeLanes {m : Mem} (hm : m.wf) {p : Nat} {ls : List Lane}
    (h : p + 8 * ls.length ≤ addressSpace) {i : Nat} (hi : i < ls.length) :
    (m.writeLanes p ls).readLane (p + 8 * i) = ls[i] := by
  have hl := length_laneBytes ls
  rw [Mem.readLane, Mem.readNat, Mem.writeLanes_eq,
    Mem.bytes_writeBytes_slice hm (by omega) (by omega), laneBytes_slice ls hi, bytesToNat_natToBytes]
  apply BitVec.eq_of_toNat_eq
  have := ls[i].isLt
  rw [BitVec.toNat_ofNat]
  norm_num
  omega

/-- A lane depends on its eight bytes alone. -/
theorem Mem.readLane_congr {m m' : Mem} {p : Nat} (h : ∀ x, p ≤ x → x < p + 8 → m.byte x = m'.byte x) :
    m.readLane p = m'.readLane p := by
  rw [Mem.readLane, Mem.readNat_congr h]; rfl

/-- The real lanes, one by one (R45). -/
theorem Mem.getElem_readLanes (m : Mem) (p : Nat) {i : Nat} (hi : i < 25) :
    (m.readLanes p)[i] = m.readLane (p + 8 * i) :=
  Vector.getElem_ofFn ..

/-- The real lanes depend on their 200 bytes alone (R45). -/
theorem Mem.readLanes_congr {m m' : Mem} {p : Nat} (h : ∀ x, p ≤ x → x < p + 200 → m.byte x = m'.byte x) :
    m.readLanes p = m'.readLanes p := by
  refine Vector.ext fun i hi => ?_
  rw [Mem.getElem_readLanes, Mem.getElem_readLanes]
  exact Mem.readLane_congr fun x h1 h2 => h x (by omega) (by omega)

@[simp] theorem length_drawLanes (c n : Nat) : (drawLanes c n).length = n := by simp [drawLanes]

@[simp] theorem getElem_drawLanes (c n i : Nat) (h : i < (drawLanes c n).length) :
    (drawLanes c n)[i] = Config.draw (c + i) := by simp [drawLanes]

end Sys2Proof.Machine
end

