-- ==== Sys2Proof/Laws/Bigint.lean ====
section
/-! SUPPORT. What the BIGINT frame leaves: the copy path, the result, and everything else unchanged. -/

namespace Sys2Proof.Machine

/-- The parameters' constraints, one by one. -/
theorem paramsWf_iff (c : Params) :
    paramsWf c = true ↔
      c.romBound.toNat % 32 = 0 ∧ c.scratchAddr.toNat % 32 = 0 ∧ c.romBound.toNat ≤ c.scratchAddr.toNat
        ∧ 5 ≤ c.scratchLanes ∧ c.stateAlign = 2 ^ c.stateAlign.log2 ∧ inWindow c c.scratchAddr.toNat 32 = false
        ∧ c.maskLayout.wf = true := by
  simp only [paramsWf, Bool.and_eq_true, decide_eq_true_eq, Bool.not_eq_true', and_assoc]

/-- An admitted range exists (R41). -/
theorem memAdmit_range {c : Params} {p n : Nat} {kind : AccessKind} (h : memAdmit c p n kind = true) :
    p + n ≤ addressSpace := by
  simp only [memAdmit, Bool.and_eq_true, decide_eq_true_eq] at h
  exact h.1.1

/-- An admitted range does not touch the register window (R41). -/
theorem memAdmit_window {c : Params} {p n : Nat} {kind : AccessKind} (h : memAdmit c p n kind = true) :
    inWindow c p n = false := by
  simp only [memAdmit, Bool.and_eq_true, Bool.not_eq_true'] at h
  exact h.1.2

theorem needsCopy_iff (s : State) : needsCopy s = true ↔ s.b < s.params.romBound := by
  simp [needsCopy]

/-- What the copy path does to memory, for operands that passed the checks. -/
theorem copyPath_spec {s : State} {writes : Bool} (hp : paramsWf s.params = true) (hm : s.mem.wf)
    (h : BigintReady s writes) :
    (copyPath s).wf
      ∧ (∀ x, ¬(s.b < s.params.romBound ∧ s.params.scratchAddr.toNat ≤ x ∧ x < s.params.scratchAddr.toNat + 32) →
          (copyPath s).byte x = s.mem.byte x)
      ∧ (copyPath s).readNat s.a.toNat 32 = s.operandA
      ∧ (copyPath s).readNat (sourceAddr s) 32 = s.operandB := by
  obtain ⟨-, ha, hb, hrom, hne, hscr, har, -, hbr, hcopy⟩ := h
  obtain ⟨hr32, hs32, hrs, -, -, -, -⟩ := (paramsWf_iff _).mp hp
  unfold copyPath sourceAddr
  cases hc : needsCopy s with
  | false =>
    rw [if_neg (by simp), if_neg (by simp)]
    exact ⟨hm, fun _ _ => rfl, rfl, rfl⟩
  | true =>
    have hlt := (needsCopy_iff s).mp hc
    have hrange := memAdmit_range (hcopy hlt)
    have hb' := memAdmit_range hbr
    rw [if_pos rfl, if_pos rfl]
    refine ⟨Mem.wf_writeNat hm hrange _, fun x hx => ?_, ?_, ?_⟩
    · refine Mem.byte_writeNat_of_outside hm hrange _ ?_
      have : ¬(s.params.scratchAddr.toNat ≤ x ∧ x < s.params.scratchAddr.toNat + 32) := fun h => hx ⟨hlt, h⟩
      omega
    · refine Mem.readNat_writeNat_of_disjoint hm hrange _ ?_
      have hns : s.a.toNat ≠ s.params.scratchAddr.toNat := fun he => hscr hlt (BitVec.eq_of_toNat_eq he)
      omega
    · rw [Mem.readNat_writeNat hm hrange]
      exact Nat.mod_eq_of_lt (Mem.readNat_lt _ _ _)

/-- The whole effect of the BIGINT frame on operands that passed the checks (R107): `op` is applied to the two
operands at their own addresses. -/
theorem bigintEffect_done {s : State} {writes : Bool} {op : U256 → U256 → U256 × Bool}
    (hp : paramsWf s.params = true) (hm : s.mem.wf) (h : BigintReady s writes) :
    BigintDone s (bigintEffect s writes op) writes
      (op (BitVec.ofNat 256 s.operandA) (BitVec.ofNat 256 s.operandB)).1.toNat
      (op (BitVec.ofNat 256 s.operandA) (BitVec.ofNat 256 s.operandB)).2 0 := by
  obtain ⟨hwf, hbyte, hA, hB⟩ := copyPath_spec hp hm h
  obtain ⟨-, ha, hb, hrom, hne, hscr, har, -, hbr, hcopy⟩ := h
  obtain ⟨hr32, hs32, hrs, -, -, -, -⟩ := (paramsWf_iff _).mp hp
  have har' := memAdmit_range har
  have hscratch : s.b < s.params.romBound → (copyPath s).readNat s.params.scratchAddr.toNat 32 = s.operandB := by
    intro hlt
    have : sourceAddr s = s.params.scratchAddr.toNat := by
      rw [sourceAddr, (needsCopy_iff s).mpr hlt]; rfl
    rw [← this, hB]
  have hmem : (bigintEffect s writes op).mem
      = if writes then (copyPath s).writeU256 s.a.toNat
          (op (BitVec.ofNat 256 s.operandA) (BitVec.ofNat 256 s.operandB)).1 else copyPath s := by
    simp only [bigintEffect, Mem.readU256, hA, hB]
    rfl
  refine ⟨?_, ?_, fun hlt => ?_, fun x hx hx' => ?_⟩
  · simp only [bigintEffect, Mem.readU256, hA, hB]
    rfl
  · rw [hmem]
    cases writes with
    | false => exact hA
    | true =>
      simp only [if_true, Mem.writeU256]
      rw [Mem.readNat_writeNat hwf har']
      have hlt := (op (BitVec.ofNat 256 s.operandA) (BitVec.ofNat 256 s.operandB)).1.isLt
      exact Nat.mod_eq_of_lt (lt_of_lt_of_eq hlt (by norm_num))
  · rw [hmem]
    cases writes with
    | false => exact hscratch hlt
    | true =>
      simp only [if_true, Mem.writeU256]
      have hns : s.a.toNat ≠ s.params.scratchAddr.toNat := fun he => hscr hlt (BitVec.eq_of_toNat_eq he)
      have hd : s.params.scratchAddr.toNat + 32 ≤ s.a.toNat ∨ s.a.toNat + 32 ≤ s.params.scratchAddr.toNat := by
        clear * - ha hs32 hns
        omega
      exact (Mem.readNat_writeNat_of_disjoint hwf har' _ hd).trans (hscratch hlt)
  · rw [hmem, ← hbyte x hx']
    cases writes with
    | false => rfl
    | true =>
      simp only [if_true, Mem.writeU256]
      exact Mem.byte_writeNat_of_outside hwf har' _ (by simp at hx; omega)

/-- The BIGINT frame keeps the canonical form of memory. -/
theorem bigintEffect_wf {s : State} {writes : Bool} {op : U256 → U256 → U256 × Bool}
    (hp : paramsWf s.params = true) (hm : s.mem.wf) (h : BigintReady s writes) :
    (bigintEffect s writes op).mem.wf := by
  have hwf := (copyPath_spec hp hm h).1
  cases writes with
  | false => exact hwf
  | true =>
    simp only [bigintEffect, State.setRet_mem, State.setMem_mem, if_true, Mem.writeU256]
    exact Mem.wf_writeNat hwf (memAdmit_range h.2.2.2.2.2.2.1) _

end Sys2Proof.Machine
end

