-- ==== Sys2Proof/Laws/Sponge.lean ====
section
/-! SUPPORT. What the operations of the sponge leave alone, and where they leave the cursor. -/

namespace Sys2Proof.Machine

variable (t : HashCtx)

@[simp] theorem putByte_filled (v : Byte) : (putByte t v).filled = t.filled + 1 := rfl
@[simp] theorem putByte_scratch (v : Byte) : (putByte t v).scratch = t.scratch := rfl
@[simp] theorem putByte_variant (v : Byte) : (putByte t v).variant = t.variant := rfl
@[simp] theorem putByte_phase (v : Byte) : (putByte t v).phase = t.phase := rfl

@[simp] theorem putWord_filled (v : BitVec 32) : (putWord t v).filled = t.filled + 4 := rfl
@[simp] theorem putWord_scratch (v : BitVec 32) : (putWord t v).scratch = t.scratch := rfl
@[simp] theorem putWord_variant (v : BitVec 32) : (putWord t v).variant = t.variant := rfl
@[simp] theorem putWord_phase (v : BitVec 32) : (putWord t v).phase = t.phase := rfl

@[simp] theorem trigger_scratch : (trigger t).scratch = t.scratch := by unfold trigger; split <;> rfl
@[simp] theorem trigger_variant : (trigger t).variant = t.variant := by unfold trigger; split <;> rfl
@[simp] theorem trigger_phase : (trigger t).phase = t.phase := by unfold trigger; split <;> rfl

/-- The cursor after a trigger (R94). -/
theorem trigger_filled : (trigger t).filled = if t.filled = rate then 0 else t.filled := by
  unfold trigger
  split <;> rfl

theorem trigger_of_ne (h : t.filled ≠ rate) : trigger t = t := if_neg h

/-- A full cursor permutes and returns to 0 (R94). -/
theorem trigger_of_full (h : t.filled = rate) : trigger t = { t with lanes := keccakF t.lanes, filled := 0 } := if_pos h

/-- A lane that exists. -/
theorem xorLane_of_lt (ls : Lanes) {i : Nat} (h : i < 25) (v : Lane) : xorLane ls i v = ls.set i (ls[i] ^^^ v) := by
  ext j hj
  simp [xorLane, h, Vector.getElem_set, Vector.getElem_setIfInBounds]

/-- A byte at a cursor is XORed into its place in its lane (R92). -/
theorem putByte_eq (v : Byte) (h : t.filled / 8 < 25) :
    putByte t v =
      { t with
        lanes := t.lanes.set (t.filled / 8) (t.lanes[t.filled / 8] ^^^ (v.setWidth 64 <<< (8 * (t.filled % 8))))
        filled := t.filled + 1 } := by
  simp only [putByte, xorByte, xorLane_of_lt t.lanes h]

/-- The three fields that absorption does not touch. -/
abbrev SameCtxFrame (t u : HashCtx) : Prop :=
  u.scratch = t.scratch ∧ u.variant = t.variant ∧ u.phase = t.phase

theorem absorbHead_frame (vs : List Byte) : SameCtxFrame t (absorbHead t vs).1 := by
  induction vs generalizing t with
  | nil => exact ⟨rfl, rfl, rfl⟩
  | cons v vs ih =>
    unfold absorbHead
    split
    · exact ⟨rfl, rfl, rfl⟩
    · exact ih (putByte t v)

theorem absorbTail_frame (vs : List Byte) : SameCtxFrame t (absorbTail t vs) := by
  induction vs generalizing t with
  | nil => exact ⟨rfl, rfl, rfl⟩
  | cons v vs ih => exact ih (putByte t v)

theorem absorbWords_frame : ∀ (t : HashCtx) (vs : List Byte), SameCtxFrame t (absorbWords t vs).1
  | t, b0 :: b1 :: b2 :: b3 :: vs => by
    have ih := absorbWords_frame (trigger (putWord t (wordOfBytes b0 b1 b2 b3))) vs
    rw [absorbWords]
    simpa only [SameCtxFrame, trigger_scratch, trigger_variant, trigger_phase, putWord_scratch, putWord_variant,
      putWord_phase] using ih
  | _, [] => ⟨rfl, rfl, rfl⟩
  | _, [_] => ⟨rfl, rfl, rfl⟩
  | _, [_, _] => ⟨rfl, rfl, rfl⟩
  | _, [_, _, _] => ⟨rfl, rfl, rfl⟩

/-- Absorption changes the lanes and the cursor alone (R95). -/
theorem absorb_frame (vs : List Byte) : SameCtxFrame t (absorb t vs) := by
  have h1 := absorbHead_frame t vs
  have h2 := absorbWords_frame (trigger (absorbHead t vs).1) (absorbHead t vs).2
  have h3 := absorbTail_frame (absorbWords (trigger (absorbHead t vs).1) (absorbHead t vs).2).1
    (absorbWords (trigger (absorbHead t vs).1) (absorbHead t vs).2).2
  unfold absorb
  simp only [SameCtxFrame, trigger_scratch, trigger_variant, trigger_phase] at h1 h2 h3 ⊢
  exact ⟨h3.1.trans (h2.1.trans h1.1), h3.2.1.trans (h2.2.1.trans h1.2.1), h3.2.2.trans (h2.2.2.trans h1.2.2)⟩

@[simp] theorem absorb_scratch (vs : List Byte) : (absorb t vs).scratch = t.scratch := (absorb_frame t vs).1
@[simp] theorem absorb_variant (vs : List Byte) : (absorb t vs).variant = t.variant := (absorb_frame t vs).2.1
@[simp] theorem absorb_phase (vs : List Byte) : (absorb t vs).phase = t.phase := (absorb_frame t vs).2.2

end Sys2Proof.Machine
end

