-- ==== Sys2Proof/Laws/Hash.lean ====
section
/-! SUPPORT. What the effects of the HASH commands are, field by field. -/

namespace Sys2Proof.Machine

/-- `DOUTj` of a digest (R28). -/
theorem getElem_digestWords (d : Vector Byte 32) (j : Nat) (h : j < 8) :
    (digestWords d)[j] = wordOfBytes d[4 * j] d[4 * j + 1] d[4 * j + 2] d[4 * j + 3] := by
  unfold digestWords
  simp

/-- Everything that an absorbing `hash.update` without a permutation changes (R102). -/
theorem updateEffect_of_none {s : State} (h : permutations s.ctx s.len.toNat = 0) :
    updateEffect s = { s with ctx := absorb s.ctx (inputBytes s) } := by
  unfold updateEffect
  rw [if_pos h]
  rfl

/-- Everything that an absorbing `hash.update` with a permutation changes (R93, R102). -/
theorem updateEffect_of_some {s : State} (h : permutations s.ctx s.len.toNat ≠ 0) :
    updateEffect s =
      { s with
        ctx := { absorb s.ctx (inputBytes s) with scratch := drawLanes s.draws s.params.scratchLanes }
        draws := s.draws + s.params.scratchLanes } := by
  unfold updateEffect
  rw [if_neg h]
  rfl

/-- Everything that `hash.final` changes (R103). -/
theorem finalEffect_eq (s : State) :
    finalEffect s =
      { s with
        dout := digestWords (padAndSqueeze s.ctx)
        written := { s.written with dout := true }
        ctx :=
          { lanes := drawState (s.draws + s.params.scratchLanes)
            scratch := drawLanes s.draws s.params.scratchLanes
            filled := drawCursor (s.draws + s.params.scratchLanes + 25)
            variant := s.ctx.variant
            phase := .finalized }
        draws := s.draws + s.params.scratchLanes + 26 } := rfl

/-- Everything that `hash.final_reset` changes (R104). -/
theorem finalResetEffect_eq (s : State) :
    finalResetEffect s =
      { s with
        dout := digestWords (padAndSqueeze s.ctx)
        written := { s.written with dout := true }
        ctx :=
          { lanes := Vector.replicate 25 0
            scratch := drawLanes s.draws s.params.scratchLanes
            filled := 0
            variant := s.ctx.variant
            phase := .active }
        draws := s.draws + s.params.scratchLanes } := rfl

/-- A drawn cursor is a cursor (R29). -/
theorem drawCursor_lt (c : Nat) : drawCursor c < rate :=
  Nat.mod_lt _ (by decide)

end Sys2Proof.Machine
end

