-- ==== Sys2Proof/Laws/Keccak.lean ====
section
/-! SUPPORT. What the KECCAK commands leave in the state buffer, and the position arithmetic of the permutation. -/

namespace Sys2Proof.Machine

/-! ### The state buffer -/

theorem bufferSize_eq (c : Params) : bufferSize c = 8 * (25 + c.scratchLanes) := rfl

/-- Lanes written over a whole buffer at `A`: each lane reads back, every other byte is unchanged, and memory keeps
its canonical form. -/
theorem writeLanes_buffer {s : State} (hm : s.mem.wf) (hp : PointerOk s.params s.a) {ls : List Lane}
    (hl : ls.length = 25 + s.params.scratchLanes) :
    (s.mem.writeLanes s.a.toNat ls).wf
      ∧ SameOutside s.mem (s.mem.writeLanes s.a.toNat ls) s.a.toNat (bufferSize s.params)
      ∧ ∀ i (hi : i < ls.length), (s.mem.writeLanes s.a.toNat ls).readLane (s.a.toNat + 8 * i) = ls[i] := by
  have hr := memAdmit_range hp.2.2.2
  rw [bufferSize_eq, ← hl] at hr
  refine ⟨Mem.wf_writeLanes hm hr, fun x hx => ?_, fun i hi => Mem.readLane_writeLanes hm hr hi⟩
  rw [bufferSize_eq, ← hl] at hx
  exact Mem.byte_writeLanes_of_outside hm hr hx

theorem writeResult_mem (s : State) (r : Lanes) :
    (writeResult s r).mem = s.mem.writeLanes s.a.toNat (r.toList ++ drawLanes s.draws s.params.scratchLanes) := rfl

theorem scrambleBuffer_mem (s : State) :
    (scrambleBuffer s).mem
      = s.mem.writeLanes s.a.toNat (drawLanes s.draws (25 + s.params.scratchLanes)) := rfl

/-- The result of a permutation in the buffer: the real lanes are the result, the scratch lanes are draws, every other
byte is unchanged (R85, R86). -/
theorem writeResult_spec {s : State} (hm : s.mem.wf) (hp : PointerOk s.params s.a) (r : Lanes) :
    (writeResult s r).mem.wf
      ∧ SameOutside s.mem (writeResult s r).mem s.a.toNat (bufferSize s.params)
      ∧ (writeResult s r).mem.readLanes s.a.toNat = r
      ∧ (∀ j, j < s.params.scratchLanes →
          (writeResult s r).mem.readLane (s.a.toNat + 8 * (25 + j)) = Config.draw (s.draws + j))
      ∧ writeResult s r
          = { s with mem := (writeResult s r).mem, draws := s.draws + s.params.scratchLanes } := by
  have hlen : (r.toList ++ drawLanes s.draws s.params.scratchLanes).length = 25 + s.params.scratchLanes := by simp
  obtain ⟨hwf, hout, hlane⟩ := writeLanes_buffer hm hp hlen
  refine ⟨hwf, hout, Vector.ext fun i hi => ?_, fun j hj => ?_, rfl⟩
  · rw [Mem.getElem_readLanes _ _ hi, writeResult_mem, hlane i (by rw [hlen]; omega), List.getElem_append_left (by simpa using hi)]
    simp
  · rw [writeResult_mem, hlane (25 + j) (by rw [hlen]; omega), List.getElem_append_right (by simp)]
    simp

/-- A scrambled buffer: every lane is a draw, every other byte is unchanged (R86, R88). -/
theorem scrambleBuffer_spec {s : State} (hm : s.mem.wf) (hp : PointerOk s.params s.a) :
    (scrambleBuffer s).mem.wf
      ∧ SameOutside s.mem (scrambleBuffer s).mem s.a.toNat (bufferSize s.params)
      ∧ (∀ i, i < 25 + s.params.scratchLanes →
          (scrambleBuffer s).mem.readLane (s.a.toNat + 8 * i) = Config.draw (s.draws + i))
      ∧ scrambleBuffer s
          = { s with mem := (scrambleBuffer s).mem, draws := s.draws + (25 + s.params.scratchLanes) } := by
  have hlen : (drawLanes s.draws (25 + s.params.scratchLanes)).length = 25 + s.params.scratchLanes := by simp
  obtain ⟨hwf, hout, hlane⟩ := writeLanes_buffer hm hp hlen
  refine ⟨hwf, hout, fun i hi => ?_, rfl⟩
  rw [scrambleBuffer_mem, hlane i (by rw [hlen]; exact hi)]
  simp

/-! ### Positions (R12, R71, R75, R77) -/

@[simp] theorem laneIdx_pos (q : Fin 25) : laneIdx (posX q) (posY q) = q := by
  apply Fin.ext
  simp only [laneIdx, posX, posY]
  omega

@[simp] theorem posX_laneIdx (x y : Fin 5) : posX (laneIdx x y) = x := by
  apply Fin.ext
  simp only [laneIdx, posX]
  omega

@[simp] theorem posY_laneIdx (x y : Fin 5) : posY (laneIdx x y) = y := by
  apply Fin.ext
  simp only [laneIdx, posY]
  omega

/-- π and its inverse (R71). -/
@[simp] theorem piPos_piInv (q : Fin 25) : piPos (piInv q) = q := by revert q; decide

@[simp] theorem piInv_piPos (q : Fin 25) : piInv (piPos q) = q := by revert q; decide

end Sys2Proof.Machine
end

