-- ==== Sys2Proof/Laws/PerInstr.lean ====
section
/-! SUPPORT. Facts about every command as syntax, one lemma per constructor: the fields of its word
(spec/30_encoding.md R59). -/

namespace Sys2Proof

@[simp] theorem unitField_commandWord (u o : BitVec 4) (x : BitVec 10) : unitField (commandWord u o x) = u := by
  ext i hi
  simp [unitField, commandWord]
  grind

@[simp] theorem opField_commandWord (u o : BitVec 4) (x : BitVec 10) : opField (commandWord u o x) = o := by
  ext i hi
  simp [opField, commandWord]
  grind

@[simp] theorem highField_commandWord (u o : BitVec 4) (x : BitVec 10) : highField (commandWord u o x) = 0 := by
  ext i hi
  simp [highField, commandWord]
  grind

@[simp] theorem argField_commandWord (u o : BitVec 4) (x : BitVec 10) : argField (commandWord u o x) = x := by
  ext i hi
  simp [argField, commandWord]
  grind

namespace Laws.WordFields

/-- `UNIT` and `OP` of a command (R59, R64). -/
def unitAndOp : Instr → BitVec 4 × BitVec 4
  | .keccakF => (1, 0)
  | .keccakStep _ => (1, 1)
  | .hashNew _ => (2, 0)
  | .hashUpdate => (2, 1)
  | .hashFinal => (2, 2)
  | .hashFinalReset => (2, 3)
  | .hashDigest _ => (2, 4)
  | .bigintAdd _ | .bigintSub _ | .bigintSubneg _ | .bigintMullo _ | .bigintMulhi _ | .bigintEq _ | .bigintMemcpy _ =>
    (3, 0)

/-- The word of a command has its `UNIT` and `OP`, and `Z_HI` is 0. -/
def Statement (i : Instr) : Prop :=
  ∀ p, (unitField (encode p i), opField (encode p i)) = unitAndOp i ∧ highField (encode p i) = 0

theorem of_commandWord {i : Instr} {x : Params → BitVec 10}
    (h : ∀ p, encode p i = commandWord (unitAndOp i).1 (unitAndOp i).2 (x p)) : Statement i := by
  intro p
  rw [h p]
  simp

theorem keccakF : Statement .keccakF := of_commandWord fun _ => rfl
theorem keccakStep (k : BitVec 10) : Statement (.keccakStep k) := of_commandWord fun _ => rfl
theorem hashNew (v : Variant) : Statement (.hashNew v) := of_commandWord fun _ => rfl
theorem hashUpdate : Statement .hashUpdate := of_commandWord fun _ => rfl
theorem hashFinal : Statement .hashFinal := of_commandWord fun _ => rfl
theorem hashFinalReset : Statement .hashFinalReset := of_commandWord fun _ => rfl
theorem hashDigest (v : Variant) : Statement (.hashDigest v) := of_commandWord fun _ => rfl
theorem bigintAdd (c : Bool) : Statement (.bigintAdd c) := of_commandWord fun _ => rfl
theorem bigintSub (c : Bool) : Statement (.bigintSub c) := of_commandWord fun _ => rfl
theorem bigintSubneg (c : Bool) : Statement (.bigintSubneg c) := of_commandWord fun _ => rfl
theorem bigintMullo (c : Bool) : Statement (.bigintMullo c) := of_commandWord fun _ => rfl
theorem bigintMulhi (c : Bool) : Statement (.bigintMulhi c) := of_commandWord fun _ => rfl
theorem bigintEq (c : Bool) : Statement (.bigintEq c) := of_commandWord fun _ => rfl
theorem bigintMemcpy (c : Bool) : Statement (.bigintMemcpy c) := of_commandWord fun _ => rfl

end Laws.WordFields

end Sys2Proof
end

