-- ==== Sys2Proof/Laws/Step.lean ====
section
/-! SUPPORT. What one step can do: the host accesses one by one. -/

namespace Sys2Proof.Machine

/-- All a step can do: on well-formed parameters, idle, or the host's next access. -/
theorem step_cases {s t : State} (h : step s = .next t) :
    paramsWf s.params = true
      ∧ (s.pending = [] ∧ t = s
        ∨ ∃ act rest, s.pending = act :: rest ∧ hostAccess act (s.setPending rest) = .next t) := by
  unfold step hostStep at h
  cases hp : paramsWf s.params with
  | false => simp [hp] at h
  | true =>
    rw [hp, if_pos rfl] at h
    refine ⟨rfl, ?_⟩
    cases hq : s.pending with
    | nil =>
      rw [hq] at h
      cases h
      exact .inl ⟨rfl, rfl⟩
    | cons act rest =>
      rw [hq] at h
      exact .inr ⟨act, rest, rfl, h⟩

/-- A step with an access to come. -/
theorem step_cons {s : State} {act : HostAction} {rest : List HostAction} (hp : paramsWf s.params = true)
    (hq : s.pending = act :: rest) : step s = hostAccess act (s.setPending rest) := by
  unfold step hostStep
  rw [hp, hq]
  rfl

/-- All a write to `CMD` can do (R22). -/
theorem issueCommand_cases {w : Word} {s t : State} (h : issueCommand w s = .next t) :
    s.faulted = true ∧ t = s
      ∨ s.faulted = false
        ∧ ((∃ e, decode s.params w = .error e ∧ t = s.raise .illegalCommand w)
          ∨ ∃ i, decode s.params w = .ok i ∧ exec i s = .next t) := by
  unfold issueCommand at h
  cases hf : s.faulted with
  | true =>
    rw [hf] at h
    cases h
    exact .inl ⟨rfl, rfl⟩
  | false =>
    rw [hf] at h
    refine .inr ⟨rfl, ?_⟩
    cases hd : decode s.params w with
    | error e =>
      simp only [hd, Bool.false_eq_true, if_false] at h
      cases h
      exact .inl ⟨e, rfl, rfl⟩
    | ok i =>
      simp only [hd, Bool.false_eq_true, if_false] at h
      exact .inr ⟨i, rfl, h⟩

/-- All a write of a word to the window can do (R19 to R22). -/
theorem windowStore_cases {offset v : Word} {s t : State} (h : windowStore offset v s = .next t) :
    offset.toNat = 0 ∧ issueCommand v s = .next t
      ∨ offset.toNat = 4 ∧ t = s.setA v
      ∨ offset.toNat = 8 ∧ t = s.setB v
      ∨ offset.toNat = 12 ∧ t = s.setLen v
      ∨ t = s := by
  unfold windowStore at h
  split at h
  · rename_i ho; exact .inl ⟨ho, h⟩
  · rename_i ho; cases h; exact .inr (.inl ⟨ho, rfl⟩)
  · rename_i ho; cases h; exact .inr (.inr (.inl ⟨ho, rfl⟩))
  · rename_i ho; cases h; exact .inr (.inr (.inr (.inl ⟨ho, rfl⟩)))
  · cases h; exact .inr (.inr (.inr (.inr rfl)))

/-! ### Accesses to the window by address (log 15) -/

theorem inWindow_iff (c : Params) (p n : Nat) : inWindow c p n = true ↔ TouchesWindow c p n := by
  simp only [inWindow, rangesOverlap, windowSize, Bool.and_eq_true, decide_eq_true_eq, TouchesWindow]
  constructor
  · rintro ⟨⟨⟨hn, -⟩, h1⟩, h2⟩
    rcases Nat.le_total p c.blockBase.toNat with h | h
    · exact ⟨c.blockBase.toNat, by omega⟩
    · exact ⟨p, by omega⟩
  · rintro ⟨x, h1, h2, h3, h4⟩
    refine ⟨⟨⟨?_, ?_⟩, ?_⟩, ?_⟩ <;> omega

/-- An aligned word of the window is touched by its own bytes, at its own offset. -/
theorem window_address {c : Params} {addr offset : Word} (ho : offset.toNat < 0x40)
    (ha : addr.toNat = c.blockBase.toNat + offset.toNat) :
    inWindow c addr.toNat 4 = true ∧ addr - c.blockBase = offset := by
  refine ⟨(inWindow_iff _ _ _).mpr ⟨addr.toNat, by omega⟩, ?_⟩
  bv_omega

/-- A write of a word to the window, by offset or by address. -/
theorem hostAccess_of_writesWindow {s : State} {act : HostAction} {offset v : Word}
    (h : WritesWindow s.params act offset v) : hostAccess act s = windowWrite offset 4 v s := by
  rcases h with rfl | ⟨addr, rfl, ho, ha⟩
  · rfl
  · obtain ⟨hw, hoff⟩ := window_address ho ha
    have hv : BitVec.ofNat 32 (bytesToNat (natToBytes 4 v.toNat)) = v := by
      rw [bytesToNat_natToBytes, Nat.mod_eq_of_lt (show v.toNat < 256 ^ 4 from v.isLt), BitVec.ofNat_toNat, BitVec.setWidth_eq]
    simp only [hostAccess, hostStore, length_natToBytes, hw, hoff, hv, if_true]

/-- A read of a word of the window, by offset or by address. -/
theorem hostAccess_of_readsWindow {s : State} {act : HostAction} {offset : Word}
    (h : ReadsWindow s.params act offset) : hostAccess act s = windowRead offset 4 s := by
  rcases h with rfl | ⟨addr, rfl, ho, ha⟩
  · rfl
  · obtain ⟨hw, hoff⟩ := window_address ho ha
    simp only [hostAccess, hostLoad, hw, hoff, if_true]

/-- A load that does not touch the window. -/
theorem hostLoad_of_outside {s : State} {addr : Word} {count : Nat} (hr : addr.toNat + count ≤ addressSpace)
    (hw : ¬TouchesWindow s.params addr.toNat count) :
    hostLoad addr count s = .next (s.setHostData (s.mem.bytes addr.toNat count)) := by
  rw [← inWindow_iff, Bool.not_eq_true] at hw
  simp [hostLoad, hw, addressesExist, hr]

/-- All a host access can do. -/
theorem hostAccess_cases {act : HostAction} {s t : State} (h : hostAccess act s = .next t) :
    (∃ offset v, windowStore offset v s = .next t)
      ∨ (∃ d, t = s.setHostData d)
      ∨ (∃ addr data, act = .memWrite addr data ∧ addr.toNat + data.length ≤ addressSpace
          ∧ t = (taintBy s addr.toNat data.length).setMem (s.mem.writeBytes addr.toNat data))
      ∨ act = .reset ∧ t = s.resetBlock := by
  have hww : ∀ {offset : Word} {width : Nat} {v : Word}, windowWrite offset width v s = .next t →
      ∃ offset v, windowStore offset v s = .next t := by
    intro offset width v hw
    unfold windowWrite at hw
    split at hw
    · exact ⟨_, _, hw⟩
    · cases hw
  have hwr : ∀ {offset : Word} {width : Nat}, windowRead offset width s = .next t → ∃ d, t = s.setHostData d := by
    intro offset width hw
    unfold windowRead at hw
    split at hw
    · cases hw; exact ⟨_, rfl⟩
    · cases hw
  cases act with
  | windowWrite offset width v => exact .inl (hww h)
  | windowRead offset width => exact .inr (.inl (hwr h))
  | memWrite addr data =>
    simp only [hostAccess, hostStore] at h
    split at h
    · exact .inl (hww h)
    · split at h
      · cases h
      · rename_i hr
        split at h
        · cases h
        · cases h
          simp only [addressesExist, Bool.not_eq_true', Bool.not_eq_false, decide_eq_true_eq] at hr
          exact .inr (.inr (.inl ⟨addr, data, rfl, hr, rfl⟩))
  | memRead addr count =>
    simp only [hostAccess, hostLoad] at h
    split at h
    · exact .inr (.inl (hwr h))
    · split at h
      · cases h
      · cases h; exact .inr (.inl ⟨_, rfl⟩)
  | reset =>
    cases h
    exact .inr (.inr (.inr ⟨rfl, rfl⟩))

end Sys2Proof.Machine
end

