-- ==== Sys2Proof/Tests/Slice0.lean ====
section
/-! SUPPORT. Tests: expected results come from spec/95_test_vectors.md (its vector is named in each docstring); and a
witness for the hypotheses of every statement in Certificates/Slice0/Obligations.lean. -/

namespace Sys2Proof.Tests

open Sys2Proof.Machine

-- One theorem after the other: elaborated side by side they would reserve a stack each.
set_option Elab.async false

/-! ### Ill-formed terms are refused -/

theorem test_wf_step_649 : Instr.stepInRange (.keccakStep 649) = false := by decide

theorem test_wf_step_648 : (Instr.keccakStep 648).wf Params.sample = true := by decide

theorem test_wf_no_trigger_path :
    Instr.inBackend { Params.sample with backend := .sw } (.keccakStep 0) = false := by decide

theorem test_wf_mask_layout_repeats : MaskLayout.wf { MaskLayout.standard with carry := 7 } = false := by decide

/-- One set of parameters for each constraint of R8, and one for the mask layout (log 16). -/
theorem test_wf_params :
    [ { Params.sample with romBound := 0x10010 }, { Params.sample with scratchAddr := 0xFFFF0 },
      { Params.sample with scratchAddr := 0xFFE0 }, { Params.sample with scratchLanes := 4 },
      { Params.sample with stateAlign := 12 }, { Params.sample with stateAlign := 0 },
      { Params.sample with blockBase := 0xFFFC0 },
      { Params.sample with maskLayout := { MaskLayout.standard with add := 6 } } ].map paramsWf
      = List.replicate 8 false := by decide

theorem test_wf_sample : paramsWf Params.sample = true := by decide

/-! ### Decoding: a word of every constructor, written out from R59, R60 and R64, and the illegal words -/

/-- UNIT 0001, OP 0000 (V-E1). -/
theorem test_decode_keccakF :
    decodeTableWord 32 0b0001_0000_00000000000000_0000000000 = some .keccakF := by decide

/-- UNIT 0001, OP 0001, STEP 648 = 10_1000_1000 (V-E3). -/
theorem test_decode_keccakStep :
    decodeTableWord 32 0b0001_0001_00000000000000_1010001000 = some (.keccakStep 648) := by decide

/-- UNIT 0010, OP 0000, VAR 1 (V-E6). -/
theorem test_decode_hashNew :
    decodeTableWord 32 0b0010_0000_00000000000000_0000000001 = some (.hashNew .sha3) := by decide

/-- UNIT 0010, OP 0001 (V-E8). -/
theorem test_decode_hashUpdate :
    decodeTableWord 32 0b0010_0001_00000000000000_0000000000 = some .hashUpdate := by decide

/-- UNIT 0010, OP 0010 (V-E8). -/
theorem test_decode_hashFinal :
    decodeTableWord 32 0b0010_0010_00000000000000_0000000000 = some .hashFinal := by decide

/-- UNIT 0010, OP 0011 (V-E8). -/
theorem test_decode_hashFinalReset :
    decodeTableWord 32 0b0010_0011_00000000000000_0000000000 = some .hashFinalReset := by decide

/-- UNIT 0010, OP 0100, VAR 0 and 1 (V-E9). -/
theorem test_decode_hashDigest :
    decodeTableWord 32 0b0010_0100_00000000000000_0000000000 = some (.hashDigest .keccak)
      ∧ decodeTableWord 32 0b0010_0100_00000000000000_0000000001 = some (.hashDigest .sha3) := by decide

/-- Add is mask bit 0, C is mask bit 6 (V-E11). -/
theorem test_decode_bigintAdd :
    decodeTableWord 32 0b0011_0000_00000000000000_00_00000001 = some (.bigintAdd false)
      ∧ decodeTableWord 32 0b0011_0000_00000000000000_00_01000001 = some (.bigintAdd true) := by decide

/-- Sub is mask bit 1. -/
theorem test_decode_bigintSub :
    decodeTableWord 32 0b0011_0000_00000000000000_00_01000010 = some (.bigintSub true) := by decide

/-- SubAndNegate is mask bit 2. -/
theorem test_decode_bigintSubneg :
    decodeTableWord 32 0b0011_0000_00000000000000_00_00000100 = some (.bigintSubneg false) := by decide

/-- MulLow is mask bit 3 (V-E13). -/
theorem test_decode_bigintMullo :
    decodeTableWord 32 0b0011_0000_00000000000000_00_01001000 = some (.bigintMullo true) := by decide

/-- MulHigh is mask bit 4. -/
theorem test_decode_bigintMulhi :
    decodeTableWord 32 0b0011_0000_00000000000000_00_00010000 = some (.bigintMulhi false) := by decide

/-- Eq is mask bit 5. -/
theorem test_decode_bigintEq :
    decodeTableWord 32 0b0011_0000_00000000000000_00_01100000 = some (.bigintEq true) := by decide

/-- MemCpy is mask bit 7 (V-E12). -/
theorem test_decode_bigintMemcpy :
    decodeTableWord 32 0b0011_0000_00000000000000_00_11000000 = some (.bigintMemcpy true) := by decide

/-- V-E4, V-E7, V-E10, V-E14 to V-E23. -/
theorem test_decode_illegal :
    [ 0x11000289, 0x20000002, 0x25000000, 0x30000003, 0x30000040, 0x30000000, 0x30000101, 0x31000001, 0x10000400,
      0x10000001, 0x00000000, 0xFFFFFFFF, 0x40000000 ].map (decodeTableWord 32) = List.replicate 13 none := by decide

/-- V-E5. -/
theorem test_decode_sw_backend :
    decode { Params.sample with backend := .sw } 0x11000000 = .error .noTriggerPath := by decide

/-- The encoder gives the words of R64's table. -/
theorem test_encode :
    [ .keccakF, .keccakStep 648, .hashNew .sha3, .hashUpdate, .hashFinal, .hashFinalReset, .hashDigest .sha3,
      .bigintAdd true, .bigintSub false, .bigintSubneg false, .bigintMullo true, .bigintMulhi false, .bigintEq true,
      .bigintMemcpy true ].map (encode Params.sample)
      = [ 0x10000000, 0x11000288, 0x20000001, 0x21000000, 0x22000000, 0x23000000, 0x24000001, 0x30000041, 0x30000002,
          0x30000004, 0x30000048, 0x30000010, 0x30000060, 0x300000C0 ] := by decide

/-! ### States of the vectors -/

/-- The state after one command word, where the step answers a next state. -/
def after (s : State) (w : Nat) : Option State :=
  match step (s.withFetchWord 32 w) with
  | .next t => some t
  | .fault _ => none
  | .refused _ => none

/-- `2^256 - 1`. -/
def maxValue : Nat := 2 ^ 256 - 1

/-- The state buffer of P4 at `0x00040000`. -/
def keccakState : State := { State.reset with a := 0x40000 }

/-- A sequence on that buffer that expects step `n`. -/
def sequence (n : BitVec 10) (taint : Bool) : State :=
  { keccakState with
    seq := { active := true, next := n, ptr := 0x40000, snap := Vector.replicate 25 0, taint := taint } }

/-- The layout of section 5: `a` at `0x00020000`, `b` at `0x00020020`. -/
def bigint (a b : Nat) : State :=
  { State.reset with
    a := 0x20000
    b := 0x20020
    mem := (Mem.writeNat [] 0x20000 32 a).writeNat 0x20020 32 b }

/-- V-B32: `b` in ROM at `0x00000100`. -/
def romOperand (a b : Nat) : State :=
  { State.reset with
    a := 0x20000
    b := 0x100
    mem := (Mem.writeNat [] 0x20000 32 a).writeNat 0x100 32 b }

/-- "abc" at `0x00010000` (P1). -/
def abc : Mem := [(0x10000, 0x61), (0x10001, 0x62), (0x10002, 0x63)]

/-- An ACTIVE context with a cursor, and `n` input bytes at `0x00010000`. -/
def hashing (v : Variant) (filled n : Nat) : State :=
  { State.reset with
    a := 0x10000
    len := BitVec.ofNat 32 n
    mem := abc
    ctx := { HashCtx.initial 6 with phase := .active, filled := filled, variant := v } }

/-- The destination of the vectors and `RET`. -/
def resultOf (o : Option State) : Option (Nat × Word) :=
  o.map fun t => (t.mem.readNat 0x20000 32, t.ret)

/-- STATUS and FAULT_INFO. -/
def faultOf (o : Option State) : Option (Word × Word) :=
  o.map fun t => (t.status, t.faultInfo)

/-! ### Every row of the opcode table runs as the first command after reset -/

theorem test_every_row_runs :
    [ 0x10000000, 0x11000000, 0x20000000, 0x21000000, 0x22000000, 0x23000000, 0x24000000, 0x30000001, 0x30000002,
      0x30000004, 0x30000008, 0x30000010, 0x30000020, 0x30000080 ].map
        (fun w => (after State.reset w).isSome) = List.replicate 14 true := by decide +kernel

/-! ### The KECCAK unit -/

/-- A state with one lane 1 and every other lane 0. -/
def unitLane (i : Nat) : Lanes :=
  Vector.ofFn fun q => if q.val = i then 1 else 0

/-- V-K4 (θ). -/
theorem test_theta :
    (theta (unitLane 0)).toList
      = [1, 1, 0, 0, 2, 0, 1, 0, 0, 2, 0, 1, 0, 0, 2, 0, 1, 0, 0, 2, 0, 1, 0, 0, 2] := by decide +kernel

/-- V-K5 (ρ). -/
theorem test_rho :
    (rho (Vector.replicate 25 1))[1] = 2 ∧ (rho (Vector.replicate 25 1))[2] = 0x4000000000000000
      ∧ (rho (Vector.replicate 25 0x8000000000000000))[5] = 0x0000000800000000
      ∧ (rho (Vector.replicate 25 7))[0] = 7 := by decide +kernel

/-- V-K6 (π). -/
theorem test_pi :
    (piStep (unitLane 1))[10] = 1 ∧ (piStep (unitLane 5))[16] = 1 ∧ (piStep (unitLane 24))[4] = 1
      ∧ (piStep (unitLane 0))[0] = 1 ∧ piInv 10 = 1 ∧ piPos 1 = 10 := by decide +kernel

/-- V-K7 (χ). -/
theorem test_chi : ((chi (unitLane 0)).toList.take 5) = [1, 0, 0, 1, 0] := by decide +kernel

/-- V-K8: one round of the zero state, by the reference definition and by the circuit. -/
theorem test_one_round :
    (keccakRound 0 (Vector.replicate 25 0)).toList = 1 :: List.replicate 24 0
      ∧ (circuitRound 0 (Vector.replicate 25 0)).toList = List.replicate 25 0
      ∧ (circuitIota 1 (Vector.replicate 25 0))[0] = 1 := by decide +kernel

/-- V-K9: two rounds of the zero state. -/
theorem test_two_rounds :
    (keccakRounds (Vector.replicate 25 0) 2).toList
      = [ 0x8083, 0x100000000000, 0x8000, 1, 0x100000008000, 0, 0x200000200000, 0, 0x200000000000, 0x200000, 2, 0x200,
          0, 0x202, 0, 0x10000400, 0, 0x400, 0x10000000, 0, 0x10000000000, 0, 0x10000000004, 0, 4 ] := by
  decide +kernel

/-- V-K10: the lane-position and rotation tables. -/
theorem test_lane_table :
    lanePos 1 1 = 6 ∧ lanePos 2 1 = 9 ∧ lanePos 24 1 = 1 ∧ laneAt 1 1 = 10 ∧ rotAmount 1 1 = 3 := by decide +kernel

/-- V-F10 and V-F11: `keccak.f` on a bad pointer. -/
theorem test_keccakF_faults :
    faultOf (after { State.reset with a := 0x40004 } 0x10000000) = some (0x21, 0x40004)
      ∧ faultOf (after { State.reset with a := 0x8000 } 0x10000000) = some (0x31, 0x8000) := by decide +kernel

/-- V-F12: a buffer that overlaps the window. -/
theorem test_keccakF_window :
    faultOf (after { State.reset with a := 0x7FFFFF80 } 0x10000000) = some (0x81, 0x7FFFFF80) := by decide +kernel

/-- V-K13: STATUS and SEQ after step 0, after step 647 and after step 648. -/
theorem test_keccakStep_sequence :
    ((after keccakState 0x11000000).map fun t => (t.status, t.seqWord)) = some (0x800, 1)
      ∧ ((after (sequence 647 false) 0x11000287).map fun t => (t.status, t.seqWord)) = some (0x800, 648)
      ∧ ((after (sequence 648 false) 0x11000288).map fun t => (t.status, t.seqWord)) = some (0, 0) := by
  decide +kernel

/-- V-F13 to V-F19: a step or a command out of sequence, and an illegal word during one. -/
theorem test_keccakStep_faults :
    faultOf (after keccakState 0x11000005) = some (0x61, 0x11000005)
      ∧ faultOf (after (sequence 1 false) 0x11000002) = some (0x861, 0x11000002)
      ∧ faultOf (after { sequence 1 false with a := 0x40100 } 0x11000001) = some (0x861, 0x11000001)
      ∧ faultOf (after (sequence 1 false) 0x11000000) = some (0x861, 0x11000000)
      ∧ faultOf (after { sequence 1 false with a := 0x20000, b := 0x20020 } 0x30000001) = some (0x861, 0x30000001)
      ∧ faultOf (after (sequence 1 false) 0x00000000) = some (0x811, 0)
      ∧ faultOf (after (sequence 1 false) 0x20000000) = some (0x861, 0x20000000) := by decide +kernel

/-! ### The HASH unit -/

/-- R101's example. -/
theorem test_hashNew : ((after (hashing .keccak 7 0) 0x20000001).map State.status) = some 0x500 := by decide +kernel

/-- V-H2 and V-H14. -/
theorem test_hashUpdate :
    ((after (hashing .keccak 0 1) 0x21000000).map fun t => (t.ctx.lanes[0], t.status)) = some (0x61, 0x10100)
      ∧ ((after { hashing .keccak 0 0 with a := 0xFFFFFFFF } 0x21000000).map State.status) = some 0x100 := by
  decide +kernel

/-- V-H16: no context, and a range over the window. -/
theorem test_hashUpdate_faults :
    faultOf (after { State.reset with a := 0x10000, len := 1 } 0x21000000) = some (0x71, 0x21000000)
      ∧ faultOf (after { hashing .keccak 0 0x20 with a := 0x7FFFFFF0 } 0x21000000) = some (0x181, 0x7FFFFFF0) := by
  decide +kernel

/-- V-H7 and V-H8: the phases of R95, on messages after one cursor position or none. -/
theorem test_absorb_phases :
    (absorb (absorb (HashCtx.initial 0) [0, 1, 2, 3]) [4, 5, 6, 7]).lanes[0] = 0x0706050403020100
      ∧ (absorb (absorb (HashCtx.initial 0) [0x61]) [1, 2, 3, 4, 5, 6, 7]).lanes[0] = 0x0706050403020161
      ∧ (absorb (absorb (HashCtx.initial 0) [0x61]) [1, 2, 3, 4, 5, 6, 7]).filled = 8 := by decide +kernel

/-- V-H1: the padded states of "abc", and V-H5's padding byte at cursor 135. -/
theorem test_pad :
    (pad (absorb (freshCtx (HashCtx.initial 0) .keccak) [0x61, 0x62, 0x63])).lanes[0] = 0x01636261
      ∧ (pad (absorb (freshCtx (HashCtx.initial 0) .sha3) [0x61, 0x62, 0x63])).lanes[0] = 0x06636261
      ∧ (pad (absorb (freshCtx (HashCtx.initial 0) .sha3) [0x61, 0x62, 0x63])).lanes[16] = 0x8000000000000000
      ∧ (pad { HashCtx.initial 0 with filled := 135 }).lanes[16] = 0x8100000000000000
      ∧ (pad { HashCtx.initial 0 with filled := 135, variant := .sha3 }).lanes[16] = 0x8600000000000000 := by
  decide +kernel

/-- W2: Keccak-256 of the empty message, by `hash.final`. -/
theorem test_hashFinal_empty :
    ((after (hashing .keccak 0 0) 0x22000000).map fun t => t.dout.toList)
      = some [ 0x0146D2C5, 0x3C23F786, 0xB27D7E92, 0xC003C7DC, 0x53B600E5, 0x3B2782CA, 0x04D8FA7B, 0x70A4855D ] := by
  decide +kernel

/-- V-H16: `hash.final` of a FINALIZED context; and the phase that `hash.final` leaves. -/
theorem test_hashFinal_phase :
    faultOf (after { State.reset with ctx := { HashCtx.initial 6 with phase := .finalized } } 0x22000000)
        = some (0x271, 0x22000000)
      ∧ ((after (hashing .keccak 3 0) 0x22000000).map fun t => t.ctx.phase) = some .finalized := by decide +kernel

/-- V-H11: STATUS after `hash.final_reset`. -/
theorem test_hashFinalReset : ((after (hashing .sha3 3 0) 0x23000000).map State.status) = some 0x500 := by
  decide +kernel

/-- V-H1: SHA3-256 of "abc", by `hash.digest`, which leaves the context (V-H12). -/
theorem test_hashDigest_abc :
    ((after (hashing .keccak 1 3) 0x24000001).map fun t => t.dout.toList)
      = some [ 0xA75D983A, 0xB225E24F, 0x2D175C04, 0xBD90D36B, 0x6E085F85, 0x5B529D3E, 0x45E2BF46, 0x32154311 ] := by
  decide +kernel

/-- V-H12 and V-H16: the context stays, and a range that wraps faults. -/
theorem test_hashDigest_context :
    ((after (hashing .keccak 1 3) 0x24000001).map State.status) = some 0x10100
      ∧ faultOf (after { State.reset with a := 0xFFFFFFF0, len := 0x20 } 0x24000000) = some (0x81, 0xFFFFFFF0) := by
  decide +kernel

/-! ### The BIGINT unit -/

/-- V-B1, V-B3 and V-B5. -/
theorem test_bigintAdd :
    resultOf (after (bigint maxValue 1) 0x30000001) = some (0, 1)
      ∧ resultOf (after (bigint maxValue maxValue) 0x30000041) = some (maxValue, 1)
      ∧ resultOf (after (bigint 5 7) 0x30000041) = some (0xD, 0) := by decide +kernel

/-- V-B32: the copy path. -/
theorem test_bigintAdd_rom :
    ((after (romOperand 5 7) 0x30000001).map fun t =>
        (t.mem.readNat 0x20000 32, t.ret, t.mem.readNat 0xFFFE0 32, t.mem.readNat 0x100 32)) = some (0xC, 0, 7, 7) := by
  decide +kernel

/-- V-B6, V-B7, V-B10 and V-B11. -/
theorem test_bigintSub :
    resultOf (after (bigint 0 1) 0x30000002) = some (maxValue, 1)
      ∧ resultOf (after (bigint 0 0) 0x30000042) = some (maxValue, 1)
      ∧ resultOf (after (bigint 0 maxValue) 0x30000042) = some (0, 1)
      ∧ resultOf (after (bigint 0xA 3) 0x30000002) = some (7, 0) := by decide +kernel

/-- V-B12, V-B13 and V-B14. -/
theorem test_bigintSubneg :
    resultOf (after (bigint 1 0) 0x30000004) = some (maxValue, 1)
      ∧ resultOf (after (bigint 3 0xA) 0x30000004) = some (7, 0)
      ∧ resultOf (after (bigint 0 0) 0x30000044) = some (maxValue, 1) := by decide +kernel

/-- V-B16, V-B20 and V-B28; `RET` is a draw. -/
theorem test_bigintMullo :
    ((after (bigint maxValue maxValue) 0x30000008).map fun t => t.mem.readNat 0x20000 32) = some 1
      ∧ ((after (bigint 0 maxValue) 0x30000048).map fun t => t.mem.readNat 0x20000 32) = some 0
      ∧ ((after (bigint (2 ^ 255 + 3) (2 ^ 128 + 1)) 0x30000008).map fun t => t.mem.readNat 0x20000 32)
        = some 0x8000000000000000000000000000000300000000000000000000000000000003 := by decide +kernel

/-- V-B17, V-B19 and V-B21. -/
theorem test_bigintMulhi :
    resultOf (after (bigint maxValue maxValue) 0x30000010) = some (maxValue - 1, 0)
      ∧ resultOf (after (bigint (2 ^ 128) (2 ^ 128)) 0x30000010) = some (1, 0)
      ∧ resultOf (after (bigint (2 ^ 255) 2) 0x30000010) = some (1, 0) := by decide +kernel

/-- V-B22, V-B23 and V-B24. -/
theorem test_bigintEq :
    resultOf (after (bigint maxValue maxValue) 0x30000020) = some (maxValue, 1)
      ∧ resultOf (after (bigint 0 1) 0x30000020) = some (0, 0)
      ∧ resultOf (after (bigint 5 5) 0x30000060) = some (5, 1) := by decide +kernel

/-- V-B25, V-B26 and V-B27. -/
theorem test_bigintMemcpy :
    resultOf (after (bigint 0 maxValue) 0x30000080) = some (maxValue, 0)
      ∧ resultOf (after (bigint 0 maxValue) 0x300000C0) = some (0, 1)
      ∧ resultOf (after (bigint 9 4) 0x300000C0) = some (5, 0) := by decide +kernel

/-- V-F2 to V-F9: the faults of the BIGINT frame, in their order. -/
theorem test_bigint_faults :
    [ (0x20010, 0x20040, 0x30000001), (0x20000, 0x20011, 0x30000001), (0x20010, 0x20011, 0x30000001),
      (0x100, 0x20000, 0x30000020), (0x100, 0x100, 0x30000001), (0x20000, 0x20000, 0x30000020),
      (0xFFFE0, 0x100, 0x30000001), (0x80000000, 0x20000, 0x30000001) ].map
        (fun v => faultOf (after { State.reset with a := v.1, b := v.2.1 } v.2.2))
      = [ some (0x21, 0x20010), some (0x21, 0x20011), some (0x21, 0x20010), some (0x31, 0x100), some (0x31, 0x100),
          some (0x51, 0x20000), some (0x41, 0xFFFE0), some (0x81, 0x80000000) ] := by decide +kernel

/-! ### The host -/

/-- A faulted block (V-F1). -/
def faulted : State := State.reset.raise .illegalCommand 0

/-- V-F1 and V-F21: an illegal word, and a command to a faulted block. -/
theorem test_fault_is_sticky :
    faultOf (after State.reset 0x00000000) = some (0x11, 0)
      ∧ faultOf (after (State.reset.raise .misaligned 0x20010) 0x20000001) = some (0x21, 0x20010) := by decide +kernel

/-- R20, R62 and R126: where the spec's own model stops right after reset, and where it does not. -/
theorem test_unwrittenOperand :
    unwrittenOperand .keccakF State.reset = true ∧ unwrittenOperand (.keccakStep 1) State.reset = false
      ∧ unwrittenOperand (.hashNew .sha3) State.reset = false ∧ unwrittenOperand .hashUpdate State.reset = false
      ∧ unwrittenOperand (.hashDigest .sha3) (State.reset.setA 0) = true
      ∧ unwrittenOperand (.bigintEq true) (State.reset.setA 0) = true
      ∧ unwrittenOperand .keccakF (State.reset.setA 0) = false := by decide

/-! ### Witnesses: the hypotheses of each statement met together, clause by clause at the boundary values -/

theorem witness_DecodeEncodeRoundTrip :
    Params.sample.maskLayout.wf = true ∧ (Instr.keccakStep 648).wf Params.sample = true
      ∧ (Instr.bigintMemcpy true).wf Params.sample = true := by decide

theorem witness_EncodeDecodeRoundTrip :
    Params.sample.maskLayout.wf = true ∧ decode Params.sample 0x300000C0 = .ok (.bigintMemcpy true) := by decide

/-- One word under each clause, and the legal neighbours of the boundaries. -/
theorem witness_ReservedWordsAreIllegal :
    State.reset.fault = none
      ∧ [ 0x00000000, 0x40000000, 0xF0000000, 0x12000000, 0x25000000, 0x31000000, 0x10000400, 0x10800000, 0x10000001,
          0x21000200, 0x23000001, 0x20000002, 0x24000200, 0x30000100, 0x30000040, 0x30000081, 0x11000289 ].all
            (fun w => (decode State.reset.params w).toBool) = false
      ∧ [ 0x10000000, 0x24000001, 0x30000080, 0x300000C0, 0x11000288 ].all
            (fun w => (decode State.reset.params w).toBool) = true := by decide

/-- The host about to act. -/
def acting (s : State) (l : List HostAction) : State := s.setPending l

/-- By offset and by address. -/
theorem witness_StepRunsIssuedCommand :
    paramsWf State.reset.params = true
      ∧ (∀ act, (acting State.reset [act]).pending = act :: [])
      ∧ WritesWindow State.reset.params (.windowWrite 0x00 4 0x10000000) 0x00 0x10000000
      ∧ WritesWindow State.reset.params (.memWrite 0x80000000 [0x00, 0x00, 0x00, 0x10]) 0x00 0x10000000
      ∧ State.reset.fault = none ∧ decode State.reset.params 0x10000000 = .ok .keccakF :=
  ⟨by decide, fun _ => rfl, .inl rfl, .inr ⟨0x80000000, by decide, by decide, by decide⟩, rfl, by decide⟩

/-- By offset and by address. -/
theorem witness_FaultedBlockIgnoresCommands :
    paramsWf faulted.params = true ∧ (∀ act, (acting faulted [act]).pending = act :: []) ∧ faulted.fault ≠ none
      ∧ WritesWindow faulted.params (.windowWrite 0x00 4 0x10000000) 0x00 0x10000000
      ∧ WritesWindow faulted.params (.memWrite 0x80000000 [0x00, 0x00, 0x00, 0x10]) 0x00 0x10000000 :=
  ⟨by decide, fun _ => rfl, by decide, .inl rfl, .inr ⟨0x80000000, by decide, by decide, by decide⟩⟩

/-- Each writable register, a read-only one, and the first offset above the table; by address, `A` and the last word. -/
theorem witness_HostWindowWrites :
    paramsWf faulted.params = true ∧ (∀ act, (acting faulted [act]).pending = act :: [])
      ∧ (∀ offset, WritesWindow faulted.params (.windowWrite offset 4 5) offset 5)
      ∧ [0x04#32, 0x08#32, 0x0C#32, 0x10#32, 0x3C#32, 0x40#32].all
          (fun offset => decide (offset.toNat % 4 = 0 ∧ offset ≠ 0x00#32)) = true
      ∧ WritesWindow faulted.params (.memWrite 0x80000004 [5, 0, 0, 0]) 0x04 5
      ∧ WritesWindow faulted.params (.memWrite 0x8000003C [5, 0, 0, 0]) 0x3C 5 :=
  ⟨by decide, fun _ => rfl, fun _ => .inl rfl, by decide, .inr ⟨0x80000004, by decide, by decide, by decide⟩,
    .inr ⟨0x8000003C, by decide, by decide, by decide⟩⟩

/-- Each register of the table and the offsets at its end; by address, the first and the last word. -/
theorem witness_HostWindowReads :
    paramsWf State.reset.params = true ∧ (∀ act, (acting State.reset [act]).pending = act :: [])
      ∧ (∀ offset, ReadsWindow State.reset.params (.windowRead offset 4) offset)
      ∧ [0x00#32, 0x04#32, 0x08#32, 0x0C#32, 0x10#32, 0x14#32, 0x18#32, 0x1C#32, 0x20#32, 0x3C#32, 0x40#32].all
          (fun offset => decide (offset.toNat % 4 = 0)) = true
      ∧ ReadsWindow State.reset.params (.memRead 0x80000000 4) 0x00
      ∧ ReadsWindow State.reset.params (.memRead 0x8000003C 4) 0x3C :=
  ⟨by decide, fun _ => rfl, fun _ => .inl rfl, by decide, .inr ⟨0x80000000, rfl, by decide, by decide⟩,
    .inr ⟨0x8000003C, rfl, by decide, by decide⟩⟩

/-- A byte, and a word at offset 2; by address, a word that begins below the window, a load that ends above it, and a
byte inside it. -/
theorem witness_MisshapenWindowAccessRefused :
    paramsWf State.reset.params = true ∧ (∀ act, (acting State.reset [act]).pending = act :: [])
      ∧ MisshapenWindowAccess State.reset.params (.windowWrite 0x04 1 0)
      ∧ MisshapenWindowAccess State.reset.params (.windowRead 0x02 4)
      ∧ MisshapenWindowAccess State.reset.params (.memWrite 0x7FFFFFFE [1, 2, 3, 4])
      ∧ MisshapenWindowAccess State.reset.params (.memRead 0x8000003E 4)
      ∧ MisshapenWindowAccess State.reset.params (.memRead 0x80000004 1) :=
  ⟨by decide, fun _ => rfl, .inl ⟨0x04, 1, 0, .inl rfl, by decide⟩, .inl ⟨0x02, 4, 0, .inr rfl, by decide⟩,
    .inr ⟨0x7FFFFFFE, 4, .inl ⟨_, rfl, rfl⟩, ⟨0x80000000, by decide, by decide, by decide, by decide⟩, by decide⟩,
    .inr ⟨0x8000003E, 4, .inr rfl, ⟨0x8000003E, by decide, by decide, by decide, by decide⟩, by decide⟩,
    .inr ⟨0x80000004, 1, .inr rfl, ⟨0x80000004, by decide, by decide, by decide, by decide⟩, by decide⟩⟩

theorem witness_StatusWordFields :
    State.reset.ctx.filled < 136 ∧ (hashing .sha3 135 0).ctx.filled < 136 ∧ (hashing .sha3 135 0).status = 0x870500 := by
  decide

/-- Without a sequence, and with one that expects step 648. -/
theorem witness_SeqWordShowsNext :
    State.reset.Inv ∧ State.reset.seq.active = false ∧ (sequence 648 true).Inv ∧ (sequence 648 true).seqWord = 648 := by
  decide

/-- A store to lane 3 of the buffer (V-K14), one just below the buffer and one just above it, one just below the
window and one just above it. -/
theorem witness_HostStoreTaintsSequence :
    paramsWf (sequence 11 false).params = true ∧ (sequence 11 false).mem.wf
      ∧ (∀ addr, (acting (sequence 11 false) [.memWrite addr [1]]).pending = .memWrite addr [1] :: [])
      ∧ [0x40018#32, 0x3FFFF#32, 0x400F8#32, 0x7FFFFFFF#32, 0x80000040#32, 0x10000#32].all
          (fun addr => decide (addr.toNat + 1 ≤ 2 ^ 32
            ∧ (addr.toNat + 1 ≤ 0x80000000 ∨ 0x80000000 + 0x40 ≤ addr.toNat) ∧ (0x10000#32) ≤ addr)) = true := ⟨by decide, by decide, fun _ => rfl, by decide⟩

/-- A load during a sequence of a faulted block up to the window, and a store and a load at the top of memory. -/
theorem witness_HostLoadSeesStore :
    (paramsWf (sequence 11 true).params = true
        ∧ (acting (faulted.setSeq (sequence 11 true).seq) [.memRead 0x7FFFFFF0 16]).pending
          = .memRead 0x7FFFFFF0 16 :: []
        ∧ (0x7FFFFFF0#32).toNat + 16 ≤ 2 ^ 32 ∧ ¬TouchesWindow (sequence 11 true).params (0x7FFFFFF0#32).toNat 16)
      ∧ paramsWf State.reset.params = true ∧ State.reset.mem.wf
      ∧ (acting State.reset [.memWrite 0xFFFFFFFE [1, 2], .memRead 0xFFFFFFFE 2]).pending
        = .memWrite 0xFFFFFFFE [1, 2] :: .memRead 0xFFFFFFFE 2 :: []
      ∧ (0xFFFFFFFE#32).toNat + [1#8, 2#8].length ≤ 2 ^ 32
      ∧ ¬TouchesWindow State.reset.params (0xFFFFFFFE#32).toNat 2 ∧ State.reset.params.romBound ≤ 0xFFFFFFFE :=
  ⟨⟨by decide, rfl, by decide, fun ⟨x, h1, h2, h3, h4⟩ => absurd (h3.trans_lt h2) (by decide)⟩, by decide, by decide, rfl,
    by decide, fun ⟨x, h1, h2, h3, h4⟩ => absurd (h1.trans_lt h4) (by decide), by decide⟩

theorem witness_IdleBlockKeepsState : paramsWf State.reset.params = true ∧ State.reset.pending = [] := by decide

/-- A state on other parameters. -/
def onPlatform (c : Params) : State := { State.reset with params := c }

/-- One platform for each constraint. -/
theorem witness_IllFormedParametersRefused :
    (onPlatform { Params.sample with romBound := 0x10001 }).params.romBound.toNat % 32 ≠ 0
      ∧ (onPlatform { Params.sample with scratchAddr := 0xFFFE1 }).params.scratchAddr.toNat % 32 ≠ 0
      ∧ (onPlatform { Params.sample with scratchAddr := 0xFFE0 }).params.scratchAddr < 0x10000#32
      ∧ (onPlatform { Params.sample with scratchLanes := 4 }).params.scratchLanes < 5
      ∧ (¬∃ k, (onPlatform { Params.sample with stateAlign := 0 }).params.stateAlign = 2 ^ k)
      ∧ ∃ x, (onPlatform { Params.sample with blockBase := 0xFFFA4 }).params.scratchAddr.toNat ≤ x
          ∧ x < (onPlatform { Params.sample with blockBase := 0xFFFA4 }).params.scratchAddr.toNat + 32
          ∧ (onPlatform { Params.sample with blockBase := 0xFFFA4 }).params.blockBase.toNat ≤ x
          ∧ x < (onPlatform { Params.sample with blockBase := 0xFFFA4 }).params.blockBase.toNat + 0x40 := by
  refine ⟨by decide, by decide, by decide, by decide, ?_, 0xFFFE0, by decide, by decide, by decide, by decide⟩
  rintro ⟨k, hk⟩
  have : 0 < 2 ^ k := Nat.two_pow_pos k
  simp only [onPlatform] at hk
  omega

theorem witness_ResetClearsBlock :
    let s := acting (sequence 5 true) [.reset]
    paramsWf s.params = true ∧ s.pending = .reset :: [] := by decide

/-- Both ways on: the fault stays, and reset clears it. -/
theorem witness_OnlyResetClearsFault :
    faulted.fault = some .illegalCommand ∧ step faulted = .next faulted
      ∧ (acting faulted [.reset]).fault = some .illegalCommand
      ∧ step (acting faulted [.reset]) = .next State.reset := ⟨rfl, rfl, rfl, rfl⟩

theorem witness_StepKeepsParameters : step State.reset = .next State.reset := rfl

theorem witness_StepKeepsInvariant :
    State.reset.Inv ∧ step State.reset = .next State.reset ∧ (sequence 648 true).Inv ∧ (bigint 5 7).Inv
      ∧ (hashing .sha3 135 3).Inv := ⟨by decide, rfl, by decide, by decide +kernel, by decide⟩

theorem witness_FaultIsPrecise :
    State.reset.fault = none ∧ issueCommand 0 State.reset = .next faulted ∧ faulted.fault ≠ none :=
  ⟨rfl, rfl, by decide⟩

/-- Another command, a later step and another pointer; and the final step, which ends a sequence. -/
theorem witness_SequenceLocksOutCommands :
    (∀ v ∈ [ (sequence 1 false, 0x10000000#32, Instr.keccakF), (sequence 1 false, 0x11000002#32, .keccakStep 2),
             (sequence 1 false, 0x11000000#32, .keccakStep 0),
             ({ sequence 648 false with a := 0x40100 }, 0x11000288#32, .keccakStep 648) ],
        v.1.params.maskLayout.wf = true ∧ v.1.fault = none ∧ v.1.seq.active = true
          ∧ decode v.1.params v.2.1 = .ok v.2.2
          ∧ (match v.2.2 with
            | .keccakStep k => decide (k ≠ 0 ∧ k = v.1.seq.next ∧ v.1.a = v.1.seq.ptr)
            | _ => false) = false)
      ∧ (sequence 648 false).seq.active = true
      ∧ ((after (sequence 648 false) 0x11000288).map fun t => t.seq.active) = some false := by decide +kernel

/-- Every branch of both chains. -/
theorem witness_KeccakFaultOrder :
    let c := Params.sample
    (sequence 1 false).seq.active = true ∧ 0x40004 % c.stateAlign ≠ 0
      ∧ ({ State.reset with a := 0xFFF8 } : State).a < c.romBound
      ∧ memAdmit c 0x7FFFFF80 (8 * (25 + c.scratchLanes)) .read = false
      ∧ KeccakReady { State.reset with a := 0x10000 } ∧ StepReady 648 (sequence 648 false)
      ∧ ¬StepReady 647 (sequence 648 false) ∧ State.reset.seq.active = false := by decide

theorem witness_HashFaultOrder :
    (sequence 1 false).seq.active = true ∧ State.reset.seq.active = false ∧ State.reset.ctx.phase ≠ .active
      ∧ ({ hashing .keccak 0 1 with a := 0x7FFFFFFF + 1 } : State).ctx.phase = .active
      ∧ 0 < (hashing .keccak 0 1).len.toNat ∧ memAdmit Params.sample 0x80000000 1 .read = false
      ∧ memAdmit Params.sample 0x7FFFFFFF 1 .read = true := by decide

/-- Every branch of the chain. -/
theorem witness_BigintFaultOrder :
    (sequence 1 false).seq.active = true ∧ 0x20010 % 32 ≠ 0
      ∧ memAdmit Params.sample 0x80000020 32 .write = false ∧ memAdmit Params.sample 0x80000040 32 .read = true
      ∧ memAdmit { Params.sample with memRefusals := [.region 0xFFFE0 32 .write] } 0xFFFE0 32 .write = false
      ∧ BigintReady (romOperand 5 7) true ∧ BigintReady (bigint 5 7) true
      ∧ ¬BigintReady { romOperand 5 7 with a := 0xFFFE0 } true := by decide +kernel

theorem witness_MemAdmitRefusesWrapAndWindow :
    memAdmit Params.sample 0xFFFFFFFF 1 .read = true ∧ memAdmit Params.sample 0xFFFFFFFF 2 .read = false
      ∧ memAdmit Params.sample 0x7FFFFFFF 1 .write = true ∧ memAdmit Params.sample 0x7FFFFFFF 2 .write = false
      ∧ memAdmit Params.sample 0x8000003F 1 .read = false ∧ memAdmit Params.sample 0x80000040 1 .read = true := by
  decide

/-- The lowest and the highest buffer of the example platform; also for `KeccakStepZeroStarts` and
`MicroStepsEqualOnePermutation`. -/
theorem witness_KeccakFPermutesBuffer :
    State.reset.mem.wf ∧ KeccakReady keccakState ∧ KeccakReady { State.reset with a := 0x10000 }
      ∧ KeccakReady { State.reset with a := 0xFFFFFF08 } := by decide

theorem witness_KeccakStepContinues :
    (sequence 1 false).Inv ∧ (1#10) ≠ 0 ∧ (1#10).toNat < 648 ∧ StepReady 1 (sequence 1 false)
      ∧ (sequence 647 true).Inv ∧ (647#10).toNat < 648 ∧ StepReady 647 (sequence 647 true) := by decide

theorem witness_KeccakStepFinishes :
    (sequence 648 false).Inv ∧ StepReady 648 (sequence 648 false) ∧ (sequence 648 true).Inv
      ∧ StepReady 648 (sequence 648 true) := by decide

/-- Two buffers that differ in the first byte of lane 25. -/
theorem witness_ScratchLanesDoNotMatter :
    keccakState.mem.wf ∧ Mem.wf [(0x400C8, 7)] ∧ KeccakReady keccakState
      ∧ ∀ x, x < keccakState.a.toNat + 200 ∨ keccakState.a.toNat + 8 * (25 + keccakState.params.scratchLanes) ≤ x →
          Mem.byte [(0x400C8, 7)] x = keccakState.mem.byte x := by
  refine ⟨by decide, by decide, by decide, fun x hx => ?_⟩
  have h : ¬x = 0x400C8 := by
    rintro rfl
    revert hx
    decide
  simp [Mem.byte, h, keccakState, State.reset, Mem.unlisted]

theorem witness_HashNewStartsContext : (hashing .sha3 7 0).seq.active = false := by decide

/-- Without input, with input that stays below the rate, and with input that reaches it. -/
theorem witness_HashUpdateAbsorbs :
    (hashing .keccak 0 0).ctx.filled < 136 ∧ UpdateReady (hashing .keccak 0 0)
      ∧ (hashing .keccak 132 3).ctx.filled < 136 ∧ UpdateReady (hashing .keccak 132 3)
      ∧ (hashing .sha3 135 3).ctx.filled < 136 ∧ UpdateReady (hashing .sha3 135 3) := by decide

/-- One byte at the cursors where the clauses meet. -/
theorem witness_AbsorbCursorAndChunking :
    ({ HashCtx.initial 5 with filled := 134 } : HashCtx).filled < 135
      ∧ ({ HashCtx.initial 5 with filled := 135 } : HashCtx).filled = 135 := by decide

/-- Also for `PaddingPlacesBytes`: cursors 0 and 135. -/
theorem witness_AbsorbIsBytewise :
    (HashCtx.initial 5).filled < 136 ∧ ({ HashCtx.initial 5 with filled := 135 } : HashCtx).filled < 136 := by decide

/-- Also for `HashFinalResetDigest`. -/
theorem witness_HashFinalDigest : FinalReady (hashing .keccak 0 0) ∧ FinalReady (hashing .sha3 135 0) := by decide

/-- Also for `DigestEqualsStreamedDigest`. -/
theorem witness_HashDigestOneShot : DigestReady State.reset ∧ DigestReady (hashing .sha3 7 3) := by decide

/-- Also for `BigintSubResult`, `BigintSubnegResult`, `BigintMemcpyResult`, `BigintMulloResult`, `BigintMulhiResult`,
`AddThenSubRestores` and `ProductHalves`: without and with the copy path. -/
theorem witness_BigintAddResult :
    paramsWf (bigint maxValue 1).params = true ∧ (bigint maxValue 1).mem.wf ∧ BigintReady (bigint maxValue 1) true
      ∧ paramsWf (romOperand maxValue 1).params = true ∧ (romOperand maxValue 1).mem.wf
      ∧ BigintReady (romOperand maxValue 1) true := by decide +kernel

theorem witness_BigintEqResult :
    paramsWf (bigint 5 5).params = true ∧ (bigint 5 5).mem.wf ∧ BigintReady (bigint 5 5) false
      ∧ paramsWf (romOperand 5 7).params = true ∧ (romOperand 5 7).mem.wf ∧ BigintReady (romOperand 5 7) false := by
  decide +kernel

theorem witness_RomOperandSameResult :
    (paramsWf (romOperand 5 7).params = true ∧ (romOperand 5 7).mem.wf ∧ (bigint 5 7).mem.wf
        ∧ (bigint 5 7).params = (romOperand 5 7).params ∧ (bigint 5 7).a = (romOperand 5 7).a
        ∧ (bigint 5 7).draws = (romOperand 5 7).draws)
      ∧ (BigintReady (romOperand 5 7) true ∧ BigintReady (bigint 5 7) true ∧ BigintReady (romOperand 5 7) false
        ∧ BigintReady (bigint 5 7) false)
      ∧ (romOperand 5 7).b < (romOperand 5 7).params.romBound ∧ (romOperand 5 7).params.romBound ≤ (bigint 5 7).b
      ∧ (bigint 5 7).operandA = (romOperand 5 7).operandA ∧ (bigint 5 7).operandB = (romOperand 5 7).operandB :=
  ⟨by decide +kernel, by decide +kernel, by decide +kernel⟩

/-- Also for `CommandsWriteOnlyTheirObjects` and `CommandsKeepOtherRegisters`: a completed command of each unit that
writes nothing outside the state, and one that copies. -/
theorem witness_CommandsNeverWriteRom :
    (hashing .sha3 7 0).Inv ∧ (∃ t, exec (.hashNew .keccak) (hashing .sha3 7 0) = .next t) ∧ (romOperand 5 7).Inv
      ∧ (∃ t, exec (.bigintAdd true) (romOperand 5 7) = .next t) ∧ keccakState.Inv
      ∧ ∃ t, exec .keccakF keccakState = .next t :=
  ⟨by decide, ⟨_, rfl⟩, by decide +kernel, ⟨_, rfl⟩, by decide, ⟨_, rfl⟩⟩

end Sys2Proof.Tests
end

namespace Sys2Proof.Machine

/-- Parameters that break a constraint stop the model before the host's next access is looked at (log 17). -/
theorem step_of_paramsWf_false {s : State} (h : paramsWf s.params = false) :
    step s = .refused .illFormedParameters := by
  unfold step hostStep
  rw [h]
  rfl

/-- An alignment that the check accepts is a power of two (R8). -/
theorem stateAlign_isPowerOfTwo {c : Params} (h : paramsWf c = true) : ∃ k, c.stateAlign = 2 ^ k := by
  obtain ⟨-, -, -, -, halign, -, -⟩ := (paramsWf_iff c).mp h
  exact ⟨_, halign⟩

/-- A scratch slot that the check accepts shares no byte with the register window (R8). -/
theorem scratchSlot_outside_window {c : Params} (h : paramsWf c = true) :
    ¬TouchesWindow c c.scratchAddr.toNat 32 := by
  obtain ⟨-, -, -, -, -, hwindow, -⟩ := (paramsWf_iff c).mp h
  rwa [← inWindow_iff, Bool.not_eq_true]

/-- Settles O15: each broken constraint contradicts what the check accepts, so the check fails and the step is
refused. -/
theorem illFormedParametersRefused : Obligations.IllFormedParametersRefused := by
  intro s hbroken
  refine step_of_paramsWf_false (Bool.eq_false_iff.mpr fun hwf => ?_)
  obtain ⟨hrom32, hscratch32, hrom, hlanes, -, -, -⟩ := (paramsWf_iff s.params).mp hwf
  rcases hbroken with h | h | h | h | h | h
  · exact h hrom32
  · exact h hscratch32
  · exact absurd (BitVec.lt_def.mp h) (Nat.not_lt.mpr hrom)
  · exact absurd h (Nat.not_lt.mpr hlanes)
  · exact h (stateAlign_isPowerOfTwo hwf)
  · exact scratchSlot_outside_window hwf h

end Sys2Proof.Machine

namespace Sys2Proof.Machine

/-! ### What one command can do -/

/-- The conditions of a command, in the order in which it checks them (R126). -/
def commandChecks (i : Instr) (s : State) : List Check :=
  let w := encode s.params i
  match i with
  | .keccakF => keccakChecks s w
  | .keccakStep k => if k = 0 then keccakChecks s w else stepChecks s k w
  | .hashNew _ => [sequenceCheck s w]
  | .hashUpdate => [sequenceCheck s w, contextCheck s w, inputCheck s]
  | .hashFinal | .hashFinalReset => finalChecks s w
  | .hashDigest _ => [sequenceCheck s w, inputCheck s]
  | .bigintEq _ => bigintChecks s false w
  | .bigintAdd _ | .bigintSub _ | .bigintSubneg _ | .bigintMullo _ | .bigintMulhi _ | .bigintMemcpy _ =>
    bigintChecks s true w

/-- The state that a micro-step leaves when none of its conditions fails (R86). -/
def microStepEffect (k : BitVec 10) (s : State) : State :=
  if k = 0 then startSequence s else if k < finalStep then continueSequence s k else finishSequence s

/-- The state that a command leaves when none of its conditions fails. -/
def commandEffect (i : Instr) (s : State) : State :=
  match i with
  | .keccakF => writeResult s (keccakF (s.mem.readLanes s.a.toNat))
  | .keccakStep k => microStepEffect k s
  | .hashNew v => s.setCtx (freshCtx s.ctx v)
  | .hashUpdate => updateEffect s
  | .hashFinal => finalEffect s
  | .hashFinalReset => finalResetEffect s
  | .hashDigest v => s.setDout (digestWords (padAndSqueeze (absorb (freshCtx (HashCtx.initial 0) v) (inputBytes s))))
  | .bigintAdd c => bigintEffect s true fun x y => opAdd x y c
  | .bigintSub c => bigintEffect s true fun x y => opSub x y c
  | .bigintSubneg c => bigintEffect s true fun x y => opSubneg x y c
  | .bigintMullo _ => (bigintEffect s true fun x y => opMullo x y (Config.drawBit s.draws)).useDraws 1
  | .bigintMulhi _ => bigintEffect s true opMulhi
  | .bigintEq _ => bigintEffect s false opEq
  | .bigintMemcpy c => bigintEffect s true fun _ y => opMemcpy y c

/-- When a command runs to its effect. -/
def CommandReady (i : Instr) (s : State) : Prop :=
  match i with
  | .keccakF => KeccakReady s
  | .keccakStep k => if k = 0 then KeccakReady s else StepReady k s
  | .hashNew _ => s.seq.active = false
  | .hashUpdate => UpdateReady s
  | .hashFinal | .hashFinalReset => FinalReady s
  | .hashDigest _ => DigestReady s
  | .bigintEq _ => BigintReady s false
  | .bigintAdd _ | .bigintSub _ | .bigintSubneg _ | .bigintMullo _ | .bigintMulhi _ | .bigintMemcpy _ =>
    BigintReady s true

/-- Every command is its conditions and then its effect. -/
theorem exec_eq_guarded (i : Instr) (s : State) : exec i s = guarded s (commandChecks i s) (commandEffect i s) := by
  cases i with
  | keccakStep k =>
    show execKeccakStep k s = _
    by_cases hk : k = 0 <;>
      simp only [execKeccakStep, commandChecks, commandEffect, microStepEffect, hk, if_true, if_false]
  | _ => rfl

/-- No condition of a command fails exactly when the command is ready. -/
theorem commandChecks_pass (i : Instr) (s : State) :
    (∀ c ∈ commandChecks i s, c.fails = false) ↔ CommandReady i s := by
  cases i with
  | keccakF => exact keccakChecks_pass s _
  | keccakStep k =>
    by_cases hk : k = 0
    · simpa only [commandChecks, CommandReady, hk, if_true] using keccakChecks_pass s _
    · simpa only [commandChecks, CommandReady, hk, if_false] using stepChecks_pass s k _
  | hashNew v => simp [commandChecks, CommandReady, sequenceCheck_pass]
  | hashUpdate => simp [commandChecks, CommandReady, sequenceCheck_pass, contextCheck_pass, inputCheck_pass]
  | hashFinal => simp [commandChecks, CommandReady, finalChecks, sequenceCheck_pass, contextCheck_pass]
  | hashFinalReset => simp [commandChecks, CommandReady, finalChecks, sequenceCheck_pass, contextCheck_pass]
  | hashDigest v => simp [commandChecks, CommandReady, sequenceCheck_pass, inputCheck_pass]
  | _ => exact bigintChecks_pass s _ _

/-- A command that is ready has its effect. -/
theorem exec_of_ready {i : Instr} {s : State} (h : CommandReady i s) : exec i s = .next (commandEffect i s) := by
  rw [exec_eq_guarded]
  exact guarded_of_pass ((commandChecks_pass i s).mpr h)

/-- All a command can do: raise the fault of a condition that fails, or, ready, have its effect. -/
theorem exec_cases {i : Instr} {s t : State} (h : exec i s = .next t) :
    (∃ c ∈ commandChecks i s, c.fails = true ∧ t = s.raise c.code c.info)
      ∨ CommandReady i s ∧ t = commandEffect i s := by
  rw [exec_eq_guarded] at h
  exact (guarded_cases h).imp_right (And.imp_left (commandChecks_pass i s).mp)

/-! ### What a command leaves unchanged -/

/-- What a command of one unit leaves of the others' registers, of the context and of the sequence (R20, R24, R28,
R105). -/
def KeepsOthers (i : Instr) (s t : State) : Prop :=
  t.a = s.a ∧ t.b = s.b ∧ t.len = s.len
    ∧ t.written.a = s.written.a ∧ t.written.b = s.written.b ∧ t.written.len = s.written.len
    ∧ (isBigint i = false → t.ret = s.ret ∧ t.written.ret = s.written.ret)
    ∧ (makesDigest i = false → t.dout = s.dout ∧ t.written.dout = s.written.dout)
    ∧ (isHash i = false → t.ctx = s.ctx) ∧ (∀ v, i = .hashDigest v → t.ctx = s.ctx)
    ∧ (isStep i = false → t.seq = s.seq)
    ∧ t.params = s.params ∧ t.pending = s.pending ∧ t.hostData = s.hostData

/-- A fault leaves all of them (R127). -/
theorem keepsOthers_raise (i : Instr) (s : State) (f : FaultCode) (info : Word) :
    KeepsOthers i s (s.raise f info) := by
  simp [KeepsOthers]

/-- `hash.update` changes the context and the number of draws alone (R102). -/
theorem updateEffect_frame (s : State) : ∃ c n, updateEffect s = { s with ctx := c, draws := n } := by
  by_cases h : permutations s.ctx s.len.toNat = 0
  · exact ⟨_, _, updateEffect_of_none h⟩
  · exact ⟨_, _, updateEffect_of_some h⟩

/-- A micro-step changes memory, the sequence and the number of draws alone (R86). -/
theorem microStepEffect_frame (k : BitVec 10) (s : State) :
    ∃ q m n, microStepEffect k s = { s with seq := q, mem := m, draws := n } := by
  unfold microStepEffect finishSequence
  split_ifs <;> exact ⟨_, _, _, rfl⟩

/-- The effect of a command leaves all of them. -/
theorem keepsOthers_effect (i : Instr) (s : State) : KeepsOthers i s (commandEffect i s) := by
  cases i with
  | hashUpdate =>
    obtain ⟨c, n, h⟩ := updateEffect_frame s
    simp [KeepsOthers, commandEffect, h, isHash]
  | keccakStep k =>
    obtain ⟨q, m, n, h⟩ := microStepEffect_frame k s
    simp [KeepsOthers, commandEffect, h, isStep]
  | keccakF => simp [KeepsOthers, commandEffect, writeResult]
  | hashNew v => simp [KeepsOthers, commandEffect, isHash]
  | hashFinal => simp [KeepsOthers, commandEffect, finalEffect_eq, isHash, makesDigest]
  | hashFinalReset => simp [KeepsOthers, commandEffect, finalResetEffect_eq, isHash, makesDigest]
  | hashDigest v => simp [KeepsOthers, commandEffect, makesDigest]
  | _ => simp [KeepsOthers, commandEffect, bigintEffect, isBigint]

/-- Settles O59: a command raises a fault, which changes no register, or has the effect of its unit. -/
theorem commandsKeepOtherRegisters : Obligations.CommandsKeepOtherRegisters := by
  intro i s t h
  rcases exec_cases h with ⟨c, -, -, rfl⟩ | ⟨-, rfl⟩
  · exact keepsOthers_raise i s c.code c.info
  · exact keepsOthers_effect i s

end Sys2Proof.Machine

namespace Sys2Proof.Machine

/-! ### Absorption byte by byte (R95, R97) -/

theorem trigger_of_lt {t : HashCtx} (h : t.filled < 136) : trigger t = t :=
  trigger_of_ne t (Nat.ne_of_lt h)

/-- A trigger brings a cursor that is at most full below the rate (R94). -/
theorem trigger_filled_lt {t : HashCtx} (h : t.filled ≤ 136) : (trigger t).filled < 136 := by
  simp only [trigger_filled, rate]
  split <;> omega

/-- One byte keeps the cursor below the rate (R94). -/
theorem absorbByte_filled_lt {t : HashCtx} (h : t.filled < 136) (v : Byte) : (absorbByte t v).filled < 136 :=
  trigger_filled_lt (t := putByte t v) h

/-- A byte that does not fill the block does not permute. -/
theorem absorbByte_of_room {t : HashCtx} (h : t.filled + 1 < 136) (v : Byte) : absorbByte t v = putByte t v :=
  trigger_of_lt (t := putByte t v) h

/-- Any number of bytes keep the cursor below the rate (R29, R94). -/
theorem foldl_absorbByte_filled_lt {t : HashCtx} (h : t.filled < 136) (vs : List Byte) :
    (vs.foldl absorbByte t).filled < 136 := by
  induction vs generalizing t with
  | nil => exact h
  | cons v vs ih => exact ih (absorbByte_filled_lt h v)

/-- Phase 3 absorbs bytes that do not fill the block (R95). -/
theorem absorbTail_eq_foldl {t : HashCtx} {vs : List Byte} (h : t.filled + vs.length < 136) :
    absorbTail t vs = vs.foldl absorbByte t := by
  induction vs generalizing t with
  | nil => rfl
  | cons v vs ih =>
    rw [List.length_cons] at h
    rw [List.foldl_cons, absorbByte_of_room (by omega), ← ih (by rw [putByte_filled]; omega)]
    rfl

/-- Two values XORed into one lane. -/
theorem xorLane_xorLane (ls : Lanes) (i : Nat) (v w : Lane) :
    xorLane (xorLane ls i v) i w = xorLane ls i (v ^^^ w) := by
  by_cases hi : i < 25
  · simp [xorLane_of_lt _ hi, BitVec.xor_assoc]
  · simp [xorLane, Vector.setIfInBounds_eq_of_size_le (Nat.le_of_not_lt hi)]

/-- A word is the XOR of its four bytes, each in its place (R47). -/
theorem setWidth_wordOfBytes (b0 b1 b2 b3 : Byte) :
    ((wordOfBytes b0 b1 b2 b3).setWidth 64 : Lane)
      = b0.setWidth 64 ^^^ b1.setWidth 64 <<< 8 ^^^ b2.setWidth 64 <<< 16 ^^^ b3.setWidth 64 <<< 24 := by
  ext i hi
  simp only [wordOfBytes, BitVec.getLsbD_append, BitVec.getElem_xor, BitVec.getElem_setWidth, BitVec.getElem_shiftLeft]
  grind

/-- An aligned word at the cursor is its four bytes one after the other (R95). -/
theorem putWord_wordOfBytes {t : HashCtx} (h : t.filled % 4 = 0) (b0 b1 b2 b3 : Byte) :
    putWord t (wordOfBytes b0 b1 b2 b3) = putByte (putByte (putByte (putByte t b0) b1) b2) b3 := by
  have hdiv : ∀ k < 4, (t.filled + k) / 8 = t.filled / 8 := by omega
  have hmod : ∀ k < 4, 8 * ((t.filled + k) % 8) = 8 * k + 8 * (t.filled % 8) := by omega
  simp only [putWord, putByte, xorWord, xorByte, Nat.add_assoc, Nat.reduceAdd, hdiv 1 (by decide), hdiv 2 (by decide),
    hdiv 3 (by decide), hmod 1 (by decide), hmod 2 (by decide), hmod 3 (by decide), xorLane_xorLane,
    setWidth_wordOfBytes, BitVec.shiftLeft_xor_distrib, BitVec.shiftLeft_add, Nat.reduceMul]

/-- An aligned word and its trigger are four absorbed bytes: the cursor fills at the last byte only (R94, R95). -/
theorem trigger_putWord {t : HashCtx} (h : t.filled % 4 = 0) (hlt : t.filled < 136) (b0 b1 b2 b3 : Byte) :
    trigger (putWord t (wordOfBytes b0 b1 b2 b3)) = [b0, b1, b2, b3].foldl absorbByte t := by
  simp only [List.foldl_cons, List.foldl_nil]
  rw [putWord_wordOfBytes h, absorbByte_of_room (t := t) (by omega),
    absorbByte_of_room (t := putByte t b0) (by rw [putByte_filled]; omega),
    absorbByte_of_room (t := putByte (putByte t b0) b1) (by simp only [putByte_filled]; omega)]
  rfl

/-- From an aligned cursor, phases 2 and 3 absorb byte by byte (R95). -/
theorem absorbTail_absorbWords : ∀ {t : HashCtx} (vs : List Byte), t.filled % 4 = 0 → t.filled < 136 →
    absorbTail (absorbWords t vs).1 (absorbWords t vs).2 = vs.foldl absorbByte t
  | t, b0 :: b1 :: b2 :: b3 :: vs, h, hlt => by
    have hfilled : (trigger (putWord t (wordOfBytes b0 b1 b2 b3))).filled % 4 = 0 := by
      rw [trigger_filled, putWord_filled]
      split <;> omega
    have hroom : (trigger (putWord t (wordOfBytes b0 b1 b2 b3))).filled < 136 :=
      trigger_filled_lt (by rw [putWord_filled]; omega)
    rw [absorbWords, absorbTail_absorbWords vs hfilled hroom, trigger_putWord h hlt]
    rfl
  | _, [], _, _ => rfl
  | t, [_], _, _ => absorbTail_eq_foldl (show t.filled + 1 < 136 by omega)
  | t, [_, _], _, _ => absorbTail_eq_foldl (show t.filled + 2 < 136 by omega)
  | t, [_, _, _], _, _ => absorbTail_eq_foldl (show t.filled + 3 < 136 by omega)

/-- Phase 1 leaves the cursor at most full, and aligned unless nothing is left (R95). -/
theorem absorbHead_cursor {t : HashCtx} (h : t.filled ≤ 136) (vs : List Byte) :
    (absorbHead t vs).1.filled ≤ 136 ∧ ((absorbHead t vs).2 = [] ∨ (absorbHead t vs).1.filled % 4 = 0) := by
  induction vs generalizing t with
  | nil => exact ⟨h, .inl rfl⟩
  | cons v vs ih =>
    unfold absorbHead
    split
    · next haligned => exact ⟨h, .inr haligned⟩
    · exact ih (by rw [putByte_filled]; omega)

/-- Phase 1 and its trigger absorb the bytes they take (R95). -/
theorem absorbHead_foldl {t : HashCtx} (h : t.filled ≤ 136) (vs : List Byte) :
    (absorbHead t vs).2.foldl absorbByte (trigger (absorbHead t vs).1) = vs.foldl absorbByte (trigger t) := by
  induction vs generalizing t with
  | nil => rfl
  | cons v vs ih =>
    unfold absorbHead
    split
    · rfl
    · rw [ih (by rw [putByte_filled]; omega), trigger_of_lt (t := t) (by omega)]
      rfl

/-- The three phases absorb the bytes one at a time (R95, R97): phase 1 up to an aligned cursor, then phases 2
and 3. -/
theorem absorb_eq_foldl {t : HashCtx} (h : t.filled < 136) (data : List Byte) :
    absorb t data = data.foldl absorbByte t := by
  obtain ⟨hfull, hrest⟩ := absorbHead_cursor (Nat.le_of_lt h) data
  have hfold := absorbHead_foldl (Nat.le_of_lt h) data
  rw [trigger_of_lt h] at hfold
  rw [absorb, ← hfold]
  rcases hrest with hnil | haligned
  · rw [hnil]
    rfl
  · refine absorbTail_absorbWords _ ?_ (trigger_filled_lt hfull)
    rw [trigger_filled]
    split <;> omega

/-- Absorption leaves the cursor below the rate (R29, R94). -/
theorem absorb_filled_lt {t : HashCtx} (h : t.filled < 136) (data : List Byte) : (absorb t data).filled < 136 := by
  rw [absorb_eq_foldl h]
  exact foldl_absorbByte_filled_lt h data

end Sys2Proof.Machine

namespace Sys2Proof.Machine

/-! ### What the invariant says of the sequence -/

section
variable {s : State}

/-- What the invariant says of an active sequence (R27, R34, R86). -/
theorem seqInv_of_active (h : s.Inv) (hactive : s.seq.active = true) :
    1 ≤ s.seq.next ∧ s.seq.next ≤ finalStep ∧ PointerOk s.params s.seq.ptr := by
  obtain ⟨-, -, -, hq, -⟩ := h
  rwa [SeqInv, if_pos hactive] at hq

/-- What the invariant says when no sequence is active (R27). -/
theorem seqInv_of_idle (h : s.Inv) (hidle : s.seq.active = false) : s.seq.next = 0 ∧ s.seq.taint = false := by
  obtain ⟨-, -, -, hq, -⟩ := h
  rwa [SeqInv, hidle] at hq

/-! ### Updates of the state that keep the invariant -/

/-! What the invariant does not read may change freely. -/

@[simp] theorem inv_setA (v : Word) : (s.setA v).Inv ↔ s.Inv := Iff.rfl
@[simp] theorem inv_setB (v : Word) : (s.setB v).Inv ↔ s.Inv := Iff.rfl
@[simp] theorem inv_setLen (v : Word) : (s.setLen v).Inv ↔ s.Inv := Iff.rfl
@[simp] theorem inv_setDout (d : Vector Word 8) : (s.setDout d).Inv ↔ s.Inv := Iff.rfl
@[simp] theorem inv_setHostData (d : List Byte) : (s.setHostData d).Inv ↔ s.Inv := Iff.rfl
@[simp] theorem inv_setPending (l : List HostAction) : (s.setPending l).Inv ↔ s.Inv := Iff.rfl
@[simp] theorem inv_useDraws (n : Nat) : (s.useDraws n).Inv ↔ s.Inv := Iff.rfl

/-! What it reads must be good. -/

theorem inv_setMem (h : s.Inv) {m : Mem} (hm : m.wf) : (s.setMem m).Inv := by
  obtain ⟨hp, -, hrest⟩ := h
  exact ⟨hp, hm, hrest⟩

theorem inv_setCtx (h : s.Inv) {c : HashCtx} (hc : CtxInv (s.setCtx c)) : (s.setCtx c).Inv := by
  obtain ⟨hp, hm, -, hrest⟩ := h
  exact ⟨hp, hm, hc, hrest⟩

theorem inv_setSeq (h : s.Inv) {q : SeqState} (hq : SeqInv (s.setSeq q)) : (s.setSeq q).Inv := by
  obtain ⟨hp, hm, hc, -, hrest⟩ := h
  exact ⟨hp, hm, hc, hq, hrest⟩

/-- An active sequence needs an index from 1 to 648 and a checked pointer (R27, R86). -/
theorem inv_setSeq_of_active (h : s.Inv) {q : SeqState} (hactive : q.active = true) (hone : 1 ≤ q.next)
    (hlast : q.next ≤ finalStep) (hp : PointerOk s.params q.ptr) : (s.setSeq q).Inv := by
  refine inv_setSeq h ?_
  rw [SeqInv, State.setSeq_seq, if_pos hactive]
  exact ⟨hone, hlast, hp⟩

/-- Without a sequence the index and the taint are 0 (R27). -/
theorem inv_setSeq_of_idle (h : s.Inv) {q : SeqState} (hidle : q.active = false) (hnext : q.next = 0)
    (htaint : q.taint = false) : (s.setSeq q).Inv := by
  refine inv_setSeq h ?_
  rw [SeqInv, State.setSeq_seq, hidle]
  exact ⟨hnext, htaint⟩

/-- `RET` is a bit (R24). -/
theorem inv_setRet (h : s.Inv) (bit : Bool) : (s.setRet bit).Inv := by
  obtain ⟨hp, hm, hc, hq, -, hf⟩ := h
  refine ⟨hp, hm, hc, hq, ?_, hf⟩
  cases bit
  · exact .inl rfl
  · exact .inr rfl

/-- A fault records its information (R26, R127). -/
theorem inv_raise (h : s.Inv) (f : FaultCode) (info : Word) : (s.raise f info).Inv := by
  obtain ⟨hp, hm, hc, hq, hr, -⟩ := h
  exact ⟨hp, hm, hc, hq, hr, fun hnone => nomatch hnone⟩

/-- Fresh draws in the scratch lanes are K lanes (R29, R93). -/
theorem inv_redrawScratch (h : s.Inv) : s.redrawScratch.Inv := by
  have ⟨_, _, ⟨hfilled, _, hnone⟩, _⟩ := h
  exact inv_setCtx h ⟨hfilled, length_drawLanes _ _, hnone⟩

/-- A context that `hash.new` has opened needs a cursor below 136 and K scratch lanes (R29, R31). -/
theorem inv_setCtx_of_opened (h : s.Inv) {c : HashCtx} (hfilled : c.filled < 136)
    (hscratch : c.scratch.length = s.params.scratchLanes) (hphase : c.phase ≠ .none) : (s.setCtx c).Inv :=
  inv_setCtx h ⟨hfilled, hscratch, fun hnone => absurd hnone hphase⟩

/-- Reset meets every part of the invariant that is about the block (R38, R139). -/
theorem inv_resetBlock (h : s.Inv) : s.resetBlock.Inv := by
  obtain ⟨hp, hm, -⟩ := h
  exact ⟨hp, hm, ⟨Nat.succ_pos 135, List.length_replicate, fun _ => ⟨rfl, rfl, rfl⟩⟩, ⟨rfl, rfl⟩, .inl rfl, fun _ => rfl⟩

/-! ### The HASH unit -/

theorem inv_freshCtx (h : s.Inv) (v : Variant) : (s.setCtx (freshCtx s.ctx v)).Inv := by
  have ⟨_, _, ⟨_, hscratch, _⟩, _⟩ := h
  exact inv_setCtx_of_opened h (Nat.succ_pos 135) hscratch (by simp [freshCtx])

theorem inv_updateEffect (h : s.Inv) (hphase : s.ctx.phase = .active) : (updateEffect s).Inv := by
  have ⟨_, _, ⟨hfilled, hscratch, _⟩, _⟩ := h
  have habsorb : (s.setCtx (absorb s.ctx (inputBytes s))).Inv :=
    inv_setCtx_of_opened h (absorb_filled_lt hfilled _) (by simpa using hscratch) (by simp [hphase])
  unfold updateEffect
  split
  · exact habsorb
  · exact inv_redrawScratch habsorb

theorem inv_finalEffect (h : s.Inv) : (finalEffect s).Inv := by
  have hdrawn : ((s.setDout (digestWords (padAndSqueeze s.ctx))).redrawScratch).Inv := inv_redrawScratch h
  exact inv_setCtx_of_opened hdrawn (drawCursor_lt _) (by simp) (by simp)

theorem inv_finalResetEffect (h : s.Inv) : (finalResetEffect s).Inv :=
  inv_freshCtx (s := (s.setDout (digestWords (padAndSqueeze s.ctx))).redrawScratch) (inv_redrawScratch h)
    s.ctx.variant

/-! ### The KECCAK unit -/

theorem inv_writeResult (h : s.Inv) (hp : PointerOk s.params s.a) (r : Lanes) : (writeResult s r).Inv := by
  have ⟨_, hm, _⟩ := h
  exact inv_setMem h (writeResult_spec hm hp r).1

theorem inv_scrambleBuffer (h : s.Inv) (hp : PointerOk s.params s.a) : (scrambleBuffer s).Inv := by
  have ⟨_, hm, _⟩ := h
  exact inv_setMem h (scrambleBuffer_spec hm hp).1

/-- A step that the sequence expects has the sequence's checked pointer in `A` (R86). -/
theorem pointerOk_of_stepReady (h : s.Inv) {k : BitVec 10} (hk : StepReady k s) : PointerOk s.params s.a := by
  obtain ⟨hactive, -, hptr⟩ := hk
  rw [hptr]
  exact (seqInv_of_active h hactive).2.2

theorem inv_startSequence (h : s.Inv) (hk : KeccakReady s) : (startSequence s).Inv := by
  obtain ⟨-, hp⟩ := hk
  refine inv_scrambleBuffer (inv_setSeq_of_active h ?_ ?_ ?_ ?_) hp
  · rfl
  · show (1 : BitVec 10) ≤ 1
    decide
  · show (1 : BitVec 10) ≤ finalStep
    decide
  · exact hp

/-- The next index is still at most 648 (R27). -/
theorem inv_continueSequence (h : s.Inv) {k : BitVec 10} (hk : StepReady k s) (hlt : k < finalStep) :
    (continueSequence s k).Inv := by
  have ha := pointerOk_of_stepReady h hk
  obtain ⟨hactive, hnext, -⟩ := hk
  obtain ⟨hone, -, hp⟩ := seqInv_of_active h hactive
  rw [← hnext] at hone
  exact inv_scrambleBuffer (inv_setSeq_of_active (q := { s.seq with next := k + 1 }) h hactive (by bv_omega)
    (by bv_omega) hp) ha

theorem inv_finishSequence (h : s.Inv) {k : BitVec 10} (hk : StepReady k s) : (finishSequence s).Inv := by
  have hp := pointerOk_of_stepReady h hk
  have hended : (s.setSeq { s.seq with active := false, next := 0, taint := false }).Inv :=
    inv_setSeq_of_idle h rfl rfl rfl
  unfold finishSequence
  split
  · exact inv_writeResult ((inv_useDraws 25).mpr hended) hp _
  · exact inv_writeResult hended hp _

theorem inv_microStepEffect (h : s.Inv) {k : BitVec 10} (hk : CommandReady (.keccakStep k) s) :
    (microStepEffect k s).Inv := by
  change if k = 0 then KeccakReady s else StepReady k s at hk
  unfold microStepEffect
  split
  · next hzero =>
    rw [if_pos hzero] at hk
    exact inv_startSequence h hk
  · next hzero =>
    rw [if_neg hzero] at hk
    split
    · next hlt => exact inv_continueSequence h hk hlt
    · exact inv_finishSequence h hk

/-! ### The BIGINT unit -/

theorem inv_bigintEffect (h : s.Inv) {writes : Bool} (hb : BigintReady s writes) (op : U256 → U256 → U256 × Bool) :
    (bigintEffect s writes op).Inv := by
  have ⟨hp, hm, _⟩ := h
  exact inv_setRet (inv_setMem h (bigintEffect_wf hp hm hb)) _

/-! ### Commands, host accesses, steps -/

theorem inv_commandEffect (h : s.Inv) {i : Instr} (hi : CommandReady i s) : (commandEffect i s).Inv := by
  cases i with
  | keccakF => exact inv_writeResult h hi.2 _
  | keccakStep k => exact inv_microStepEffect h hi
  | hashNew v => exact inv_freshCtx h v
  | hashUpdate => exact inv_updateEffect h hi.2.1
  | hashFinal => exact inv_finalEffect h
  | hashFinalReset => exact inv_finalResetEffect h
  | hashDigest v => exact (inv_setDout _).mpr h
  | bigintMullo c => exact (inv_useDraws 1).mpr (inv_bigintEffect h hi _)
  | _ =>
    simp only [commandEffect]
    exact inv_bigintEffect h hi _

variable {t : State}

theorem inv_exec {i : Instr} (h : s.Inv) (he : exec i s = .next t) : t.Inv := by
  rcases exec_cases he with ⟨c, -, -, rfl⟩ | ⟨hi, rfl⟩
  · exact inv_raise h c.code c.info
  · exact inv_commandEffect h hi

theorem inv_issueCommand {w : Word} (h : s.Inv) (he : issueCommand w s = .next t) : t.Inv := by
  rcases issueCommand_cases he with ⟨-, rfl⟩ | ⟨-, ⟨-, -, rfl⟩ | ⟨i, -, hi⟩⟩
  · exact h
  · exact inv_raise h .illegalCommand w
  · exact inv_exec h hi

theorem inv_windowStore {offset v : Word} (h : s.Inv) (he : windowStore offset v s = .next t) : t.Inv := by
  rcases windowStore_cases he with ⟨-, hc⟩ | ⟨-, rfl⟩ | ⟨-, rfl⟩ | ⟨-, rfl⟩ | rfl
  · exact inv_issueCommand h hc
  all_goals exact h

/-- A store taints an active sequence only (R58). -/
theorem inv_taintBy (h : s.Inv) (p n : Nat) : (taintBy s p n).Inv := by
  cases hactive : s.seq.active with
  | true =>
    obtain ⟨hone, hlast, hp⟩ := seqInv_of_active h hactive
    exact inv_setSeq_of_active h hactive hone hlast hp
  | false =>
    obtain ⟨hnext, htaint⟩ := seqInv_of_idle h hactive
    exact inv_setSeq_of_idle h hactive hnext (by simp [htaint, hactive])

theorem inv_hostAccess {act : HostAction} (h : s.Inv) (he : hostAccess act s = .next t) : t.Inv := by
  rcases hostAccess_cases he with ⟨offset, v, hw⟩ | ⟨d, rfl⟩ | ⟨addr, data, -, hrange, rfl⟩ | ⟨-, rfl⟩
  · exact inv_windowStore h hw
  · exact h
  · have ⟨_, hm, _⟩ := h
    exact inv_setMem (inv_taintBy h _ _) (Mem.wf_writeBytes hm hrange)
  · exact inv_resetBlock h

end

/-- Settles O20: a step is idle or takes one host access, and every host access keeps the invariant. -/
theorem stepKeepsInvariant : Obligations.StepKeepsInvariant := by
  intro s t h hstep
  obtain ⟨-, ⟨-, rfl⟩ | ⟨act, rest, -, hact⟩⟩ := step_cases hstep
  · exact h
  · exact inv_hostAccess (s := s.setPending rest) h hact

/-- Settles O21: reset is the example platform with every part of the block at its reset value. -/
theorem resetMeetsInvariant : Obligations.ResetMeetsInvariant :=
  ⟨by decide, Mem.wf_nil, ⟨by decide, rfl, fun _ => ⟨rfl, rfl, rfl⟩⟩, ⟨rfl, rfl⟩, .inl rfl, fun _ => rfl⟩

end Sys2Proof.Machine

namespace Sys2Proof.Machine

/-! ### The digest in `DOUT` (R28, R98) -/

/-- The digest bytes, one by one (R98). -/
theorem getElem_squeeze (ls : Lanes) (j : Nat) (h : j < 32) :
    (squeeze ls)[j] = (ls[j / 8] >>> (8 * (j % 8))).setWidth 8 := by
  have hlane : j / 8 < 25 := by omega
  simp [squeeze, hlane]

/-- Four neighbouring bytes of a lane are a word of it. -/
theorem wordOfBytes_bytes (x : Lane) :
    wordOfBytes (x.setWidth 8) ((x >>> 8).setWidth 8) ((x >>> 16).setWidth 8) ((x >>> 24).setWidth 8)
      = x.setWidth 32 := by
  ext i hi
  simp only [wordOfBytes, BitVec.getElem_setWidth]
  grind

/-- `DOUT0..7` of the squeezed lanes show their first 32 bytes (R28, R98). -/
theorem digestShown_squeeze (ls : Lanes) : DigestShown (digestWords (squeeze ls)) ls := by
  intro j hj
  have hlane : ∀ k < 4, (4 * j + k) / 8 = j / 2 := by omega
  have hshift : ∀ k < 4, 8 * ((4 * j + k) % 8) = 32 * (j % 2) + 8 * k := by omega
  have hbyte : ∀ k (hk : k < 4),
      (squeeze ls)[4 * j + k] = ((ls[j / 2] >>> (32 * (j % 2))) >>> (8 * k)).setWidth 8 := by
    intro k hk
    simp only [getElem_squeeze, hlane k hk, hshift k hk, BitVec.shiftRight_add]
  rw [getElem_digestWords _ j hj, ← wordOfBytes_bytes]
  exact congr (congr (congr (congrArg _ (hbyte 0 (by decide))) (hbyte 1 (by decide))) (hbyte 2 (by decide)))
    (hbyte 3 (by decide))

/-- The digest of a context shows the permuted padded state (R98). -/
theorem digestShown_padAndSqueeze (c : HashCtx) :
    DigestShown (digestWords (padAndSqueeze c)) (keccakF (pad c).lanes) :=
  digestShown_squeeze _

/-- Settles O42: a ready `hash.final` has its effect, and that shows the digest. -/
theorem hashFinalDigest : Obligations.HashFinalDigest := by
  intro s h
  have hexec := exec_of_ready (i := .hashFinal) h
  rw [commandEffect, finalEffect_eq] at hexec
  exact ⟨_, hexec, digestShown_padAndSqueeze s.ctx, rfl, rfl, rfl⟩

/-- Settles O43: a ready `hash.final_reset` has its effect, and that shows the digest. -/
theorem hashFinalResetDigest : Obligations.HashFinalResetDigest := by
  intro s h
  have hexec := exec_of_ready (i := .hashFinalReset) h
  rw [commandEffect, finalResetEffect_eq] at hexec
  exact ⟨_, hexec, digestShown_padAndSqueeze s.ctx, rfl, rfl, rfl, rfl, rfl⟩

/-! ### What the digest reads of a context -/

/-- The two contexts have the lanes, the cursor and the variant in common. -/
def SameSponge (t u : HashCtx) : Prop :=
  t.lanes = u.lanes ∧ t.filled = u.filled ∧ t.variant = u.variant

theorem sameSponge_putByte {t u : HashCtx} (h : SameSponge t u) (v : Byte) :
    SameSponge (putByte t v) (putByte u v) := by
  obtain ⟨hl, hf, hv⟩ := h
  exact ⟨by simp only [putByte, xorByte, hl, hf], congrArg (· + 1) hf, hv⟩

theorem sameSponge_trigger {t u : HashCtx} (h : SameSponge t u) : SameSponge (trigger t) (trigger u) := by
  obtain ⟨hl, hf, hv⟩ := id h
  by_cases hfull : u.filled = rate
  · rw [trigger_of_full u hfull, trigger_of_full t (hf.trans hfull)]
    exact ⟨congrArg keccakF hl, rfl, hv⟩
  · rwa [trigger_of_ne u hfull, trigger_of_ne t (hf ▸ hfull)]

/-- Absorption reads the lanes, the cursor and the variant alone (R95). -/
theorem sameSponge_foldl {t u : HashCtx} (h : SameSponge t u) (vs : List Byte) :
    SameSponge (vs.foldl absorbByte t) (vs.foldl absorbByte u) := by
  induction vs generalizing t u with
  | nil => exact h
  | cons v vs ih => exact ih (sameSponge_trigger (sameSponge_putByte h v))

/-- Padding reads the lanes, the cursor and the variant alone (R98). -/
theorem pad_lanes_congr {t u : HashCtx} (h : SameSponge t u) : (pad t).lanes = (pad u).lanes := by
  obtain ⟨hl, hf, hv⟩ := h
  simp only [pad, xorByte, hl, hf, hv]

/-- Settles O44: a ready `hash.digest` has its effect; the context of its own may be any fresh one, because the digest
reads the lanes, the cursor and the variant alone. -/
theorem hashDigestOneShot : Obligations.HashDigestOneShot := by
  intro s v h
  refine ⟨commandEffect (.hashDigest v) s, exec_of_ready (i := .hashDigest v) h, fun fresh hl hf hv => ?_, rfl⟩
  have hfresh : SameSponge (freshCtx (HashCtx.initial 0) v) fresh := ⟨hl.symm, hf.symm, hv.symm⟩
  have hcursor : (freshCtx (HashCtx.initial 0) v).filled < 136 := Nat.succ_pos 135
  rw [← pad_lanes_congr (sameSponge_foldl hfresh _), ← absorb_eq_foldl hcursor]
  exact digestShown_padAndSqueeze _

end Sys2Proof.Machine

namespace Sys2Proof.Machine

/-! ### The register window (R19 to R22) -/

theorem windowAccessOk_iff (offset : Word) (width : Nat) :
    windowAccessOk offset width = true ↔ width = 4 ∧ offset.toNat % 4 = 0 := by
  simp [windowAccessOk]

section
variable {s : State} {act : HostAction} {rest : List HostAction} {offset v : Word}

/-- A write of an aligned word to the window, by offset or by address (R18, R21; log 15). -/
theorem step_of_writesWindow (hp : paramsWf s.params = true) (hq : s.pending = act :: rest)
    (hw : WritesWindow s.params act offset v) (halign : offset.toNat % 4 = 0) :
    step s = windowStore offset v (s.setPending rest) := by
  rw [step_cons hp hq, hostAccess_of_writesWindow (s := s.setPending rest) hw, windowWrite,
    if_pos ((windowAccessOk_iff offset 4).mpr ⟨rfl, halign⟩)]

/-- A read of an aligned word of the window, by offset or by address (R18, R21; log 15). -/
theorem step_of_readsWindow (hp : paramsWf s.params = true) (hq : s.pending = act :: rest)
    (hr : ReadsWindow s.params act offset) (halign : offset.toNat % 4 = 0) :
    step s = .next ((s.setPending rest).setHostData (natToBytes 4 (windowLoad offset (s.setPending rest)).toNat)) := by
  rw [step_cons hp hq, hostAccess_of_readsWindow (s := s.setPending rest) hr, windowRead,
    if_pos ((windowAccessOk_iff offset 4).mpr ⟨rfl, halign⟩)]

end

/-- `CMD` is at offset 0 (R19, R22). -/
theorem windowStore_cmd (v : Word) (s : State) : windowStore 0x00#32 v s = issueCommand v s := rfl

/-- `A`, `B` and `LEN` are the only other registers that a write sets (R19, R20). -/
theorem windowStore_of_ne_cmd {offset : Word} (h : offset ≠ 0x00#32) (v : Word) (s : State) :
    windowStore offset v s = .next
      (if offset = 0x04#32 then s.setA v else if offset = 0x08#32 then s.setB v
       else if offset = 0x0C#32 then s.setLen v else s) := by
  rw [ne_eq, ← BitVec.toNat_inj] at h
  simp only [← BitVec.toNat_inj, BitVec.toNat_ofNat, Nat.reducePow, Nat.reduceMod] at h ⊢
  unfold windowStore
  split
  · next hcmd => exact absurd hcmd h
  · next ha => rw [if_pos ha]
  · next hb => rw [if_neg (by omega), if_pos hb]
  · next hlen => rw [if_neg (by omega), if_neg (by omega), if_pos hlen]
  · next ha hb hlen => rw [if_neg ha, if_neg hb, if_neg hlen]

/-- From offset 0x20 on the window shows `DOUT`, and 0 past its end (R19, R28). -/
theorem windowLoad_dout {offset : Word} (h : 0x20 ≤ offset.toNat) (halign : offset.toNat % 4 = 0) (s : State) :
    windowLoad offset s = s.dout[(offset.toNat - 0x20) / 4]?.getD 0 := by
  unfold windowLoad
  split
  case h_9 => exact if_pos ⟨h, halign⟩
  all_goals omega

/-- An unfaulted block runs the command that a word decodes to (R22). -/
theorem issueCommand_of_decode {s : State} {w : Word} {i : Instr} (hf : s.fault = none)
    (hd : decode s.params w = .ok i) : issueCommand w s = exec i s := by
  simp [issueCommand, State.faulted, hf, hd]

/-- A faulted block ignores commands (R22, R128). -/
theorem issueCommand_of_fault {s : State} (hf : s.fault ≠ none) (w : Word) : issueCommand w s = .next s := by
  simp [issueCommand, State.faulted, Option.isSome_iff_ne_none, hf]

/-- Settles O5: the access is a write to `CMD`, and the word decodes. -/
theorem stepRunsIssuedCommand : Obligations.StepRunsIssuedCommand := by
  intro s act rest w i hp hq hw hf hd
  rw [step_of_writesWindow hp hq hw rfl, windowStore_cmd, issueCommand_of_decode (s := s.setPending rest) hf hd]

/-- Settles O6: the access is a write to `CMD`, and the block is faulted. -/
theorem faultedBlockIgnoresCommands : Obligations.FaultedBlockIgnoresCommands := by
  intro s act rest w hp hq hw hf
  rw [step_of_writesWindow hp hq hw rfl, windowStore_cmd, issueCommand_of_fault (s := s.setPending rest) hf]
  rfl

/-- Settles O7: the access is a write to the window at an offset other than that of `CMD`. -/
theorem hostWindowWrites : Obligations.HostWindowWrites := by
  intro s act rest offset v hp hq hw halign hcmd
  rw [step_of_writesWindow hp hq hw halign, windowStore_of_ne_cmd hcmd]
  rfl

/-- Settles O8: the word read is the one the window shows at the offset. -/
theorem hostWindowReads : Obligations.HostWindowReads := by
  intro s act rest offset hp hq hr halign
  refine ⟨windowLoad offset (s.setPending rest), step_of_readsWindow hp hq hr halign,
    ?_, ?_, ?_, ?_, ?_, ?_, ?_, ?_, ?_, ?_⟩
  case refine_9 =>
    intro j hj hoff
    rw [windowLoad_dout (by omega) halign, show (offset.toNat - 0x20) / 4 = j by omega]
    simp [hj]
  case refine_10 =>
    intro hoff
    rw [windowLoad_dout (by omega) halign, Vector.getElem?_eq_none (by omega)]
    rfl
  all_goals
    rintro rfl
    rfl

/-- Settles O9: whichever way the access reaches the window, it is not one aligned word of it. -/
theorem misshapenWindowAccessRefused : Obligations.MisshapenWindowAccessRefused := by
  intro s act rest hp hq hmis
  rw [step_cons hp hq]
  rcases hmis with ⟨offset, width, v, hact, hshape⟩ | ⟨addr, n, hact, htouch, hshape⟩
  · have hnot : ¬windowAccessOk offset width = true := by
      rw [windowAccessOk_iff]
      exact fun ⟨hw, ho⟩ => hshape.elim (· hw) (· ho)
    rcases hact with rfl | rfl
    · exact if_neg hnot
    · exact if_neg hnot
  · have hnot : ¬windowAccessOk (addr - s.params.blockBase) n = true := by
      rw [windowAccessOk_iff]
      exact fun ⟨hw, ho⟩ => hshape.elim (· hw) (· ho)
    rcases hact with ⟨data, rfl, rfl⟩ | rfl
    · exact (if_pos ((inWindow_iff _ _ _).mpr htouch)).trans (if_neg hnot)
    · exact (if_pos ((inWindow_iff _ _ _).mpr htouch)).trans (if_neg hnot)

/-! ### The STATUS and SEQ words (R25, R27) -/

/-- The fields of the STATUS word, the lowest first (R25). -/
theorem status_fields (s : State) :
    s.status.extractLsb' 0 1 = BitVec.ofBool s.faulted
      ∧ s.status.extractLsb' 1 3 = 0
      ∧ s.status.extractLsb' 4 4 = s.faultCode
      ∧ s.status.extractLsb' 8 2 = phaseNumber s.ctx.phase
      ∧ s.status.extractLsb' 10 1 = BitVec.ofBool s.ctx.variant.bit
      ∧ s.status.extractLsb' 11 1 = BitVec.ofBool s.seq.active
      ∧ s.status.extractLsb' 12 4 = 0
      ∧ s.status.extractLsb' 16 8 = s.hashFilled
      ∧ s.status.extractLsb' 24 8 = 0 := by
  unfold State.status
  refine ⟨?_, ?_, ?_, ?_, ?_, ?_, ?_, ?_, ?_⟩ <;>
    simp (disch := decide) only [BitVec.extractLsb'_append_eq_of_le, BitVec.extractLsb'_append_eq_of_add_le,
      BitVec.extractLsb'_eq_self, Nat.reduceSub, BitVec.ofNat_eq_ofNat]

/-- `FAULTED` (R25). -/
theorem ofBool_faulted (s : State) : BitVec.ofBool s.faulted = if s.fault = none then 0 else 1 := by
  unfold State.faulted
  cases s.fault <;> rfl

/-- `HASH_FILLED` holds every cursor (R25, R106). -/
theorem toNat_hashFilled {s : State} (h : s.ctx.filled < 136) :
    s.hashFilled.toNat = if s.ctx.phase = .active then s.ctx.filled else 0 := by
  unfold State.hashFilled
  split
  · exact Nat.mod_eq_of_lt (by omega)
  · rfl

/-- Settles O10: each field is a view of the piece of state that it shows. -/
theorem statusWordFields : Obligations.StatusWordFields := by
  intro s hfilled
  obtain ⟨hfaulted, hzero1, hcode, hphase, hvariant, hactive, hzero12, hcursor, hzero24⟩ := status_fields s
  refine ⟨hfaulted.trans (ofBool_faulted s), hzero1, ?_, ?_, ?_, ?_, hzero12, ?_, hzero24⟩
  · rw [hcode, State.faultCode]
    rcases s.fault with - | f
    · rfl
    · cases f <;> rfl
  · rw [hphase]
    cases s.ctx.phase <;> rfl
  · rw [hvariant]
    cases s.ctx.variant <;> rfl
  · rw [hactive]
    cases s.seq.active <;> rfl
  · rw [hcursor, toNat_hashFilled hfilled]

/-- The value of the SEQ word is the next index (R27). -/
theorem toNat_seqWord (s : State) : s.seqWord.toNat = s.seq.next.toNat := by
  rw [State.seqWord, BitVec.toNat_append]
  simp

/-- The index is at most 648, and 0 without a sequence (R27). -/
theorem seqNext_bound {s : State} (h : s.Inv) : s.seq.next.toNat ≤ 648 ∧ (s.seq.active = false → s.seq.next = 0) := by
  cases hactive : s.seq.active with
  | true =>
    obtain ⟨-, hlast, -⟩ := seqInv_of_active h hactive
    exact ⟨hlast, nofun⟩
  | false =>
    obtain ⟨hnext, -⟩ := seqInv_of_idle h hactive
    exact ⟨by simp [hnext], fun _ => hnext⟩

/-- Settles O11: the SEQ word is the next index below 22 zero bits, and the invariant bounds the index. -/
theorem seqWordShowsNext : Obligations.SeqWordShowsNext := by
  intro s h
  obtain ⟨hbound, hidle⟩ := seqNext_bound h
  refine ⟨?_, ?_, fun hactive => ?_, (toNat_seqWord s).trans_le hbound⟩
  · rw [State.seqWord, BitVec.extractLsb'_append_eq_of_add_le (by decide), BitVec.extractLsb'_eq_self]
  · rw [State.seqWord, BitVec.extractLsb'_append_eq_of_le (by decide), BitVec.extractLsb'_eq_self]
    rfl
  · rw [State.seqWord, hidle hactive]
    rfl

/-! ### Reset (R38, R139) -/

/-- Settles O16: the access is reset, and reset leaves the parameters and the host's own fields. -/
theorem resetClearsBlock : Obligations.ResetClearsBlock := by
  intro s rest hp hq
  rw [step_cons hp hq]
  rfl

/-- Settles O17: the reset state is fixed. -/
theorem resetStateValues : Obligations.ResetStateValues :=
  ⟨by decide, rfl, by decide, rfl, rfl, rfl, rfl, rfl, rfl⟩

end Sys2Proof.Machine

namespace Sys2Proof.Machine

/-! ### The bytes that a command may write (R39, R40, R49) -/

/-- Only bytes of the range differ. -/
theorem SameOutside.byte_eq {m m' : Mem} {p n x : Nat} (h : SameOutside m m' p n) (hx : ¬(p ≤ x ∧ x < p + n)) :
    m'.byte x = m.byte x :=
  h x (by omega)

section
variable {s : State}

/-- The checked pointer of a micro-step: that of `A` itself at step 0, that of the sequence later (R86). -/
theorem pointerOk_of_microStep (h : s.Inv) {k : BitVec 10} (hk : CommandReady (.keccakStep k) s) :
    PointerOk s.params s.a := by
  by_cases hzero : k = 0
  · rw [CommandReady, if_pos hzero] at hk
    exact hk.2
  · rw [CommandReady, if_neg hzero] at hk
    exact pointerOk_of_stepReady h hk

/-- `keccak.step 648` writes one permutation's result over the buffer: that of the snapshot, or draws (R86). -/
theorem finishSequence_eq (s : State) :
    finishSequence s =
      writeResult
        ((s.setSeq { s.seq with active := false, next := 0, taint := false }).useDraws (if s.seq.taint then 25 else 0))
        (if s.seq.taint then drawState s.draws else keccakF s.seq.snap) := by
  unfold finishSequence
  cases s.seq.taint <;> rfl

/-- The result of a permutation is written inside the buffer at `A` alone (R85, R86). -/
theorem writeResult_sameOutside (hm : s.mem.wf) (hp : PointerOk s.params s.a) (r : Lanes) :
    SameOutside s.mem (writeResult s r).mem s.a.toNat (bufferSize s.params) := by
  obtain ⟨-, hout, -⟩ := writeResult_spec hm hp r
  exact hout

/-- A micro-step writes inside the buffer at `A` alone (R86). -/
theorem microStepEffect_sameOutside (hm : s.mem.wf) (hp : PointerOk s.params s.a) (k : BitVec 10) :
    SameOutside s.mem (microStepEffect k s).mem s.a.toNat (bufferSize s.params) := by
  have hscramble (q : SeqState) :
      SameOutside s.mem (scrambleBuffer (s.setSeq q)).mem s.a.toNat (bufferSize s.params) := by
    obtain ⟨-, hout, -⟩ := scrambleBuffer_spec (s := s.setSeq q) hm hp
    exact hout
  unfold microStepEffect
  split
  · exact hscramble _
  · split
    · exact hscramble _
    · rw [finishSequence_eq]
      exact writeResult_sameOutside (s := (s.setSeq _).useDraws _) hm hp _

/-- The BIGINT frame writes the destination and, on the copy path, the scratch slot alone (R107, R111). -/
theorem bigintEffect_byte (hp : paramsWf s.params = true) (hm : s.mem.wf) {writes : Bool} (hb : BigintReady s writes)
    (op : U256 → U256 → U256 × Bool) {x : Nat} (hdest : ¬(writes = true ∧ s.a.toNat ≤ x ∧ x < s.a.toNat + 32))
    (hslot : ¬(s.b < s.params.romBound ∧ s.params.scratchAddr.toNat ≤ x ∧ x < s.params.scratchAddr.toNat + 32)) :
    (bigintEffect s writes op).mem.byte x = s.mem.byte x := by
  obtain ⟨-, -, -, hframe⟩ := bigintEffect_done (op := op) hp hm hb
  exact hframe x hdest hslot

/-- `hash.update` leaves memory alone (R102). -/
@[simp] theorem updateEffect_mem (s : State) : (updateEffect s).mem = s.mem := by
  obtain ⟨c, n, h⟩ := updateEffect_frame s
  rw [h]

/-- The effect of a ready command leaves every byte that is not its own to write. -/
theorem commandEffect_byte (h : s.Inv) {i : Instr} (hi : CommandReady i s) {x : Nat} (hx : ¬mayWrite i s x) :
    (commandEffect i s).mem.byte x = s.mem.byte x := by
  have ⟨hp, hm, _⟩ := h
  cases i with
  | keccakF => exact (writeResult_sameOutside hm hi.2 _).byte_eq hx
  | keccakStep k => exact (microStepEffect_sameOutside hm (pointerOk_of_microStep h hi) k).byte_eq hx
  | hashUpdate => exact congrArg (·.byte x) (updateEffect_mem s)
  | hashNew _ | hashFinal | hashFinalReset | hashDigest _ => rfl
  | bigintEq c => exact bigintEffect_byte hp hm hi _ (by simp) hx
  | _ =>
    obtain ⟨hdest, hslot⟩ := not_or.mp hx
    simp only [commandEffect, State.useDraws_mem]
    exact bigintEffect_byte hp hm hi _ (fun hd => hdest hd.2) hslot

/-- Neither the destination of a ready BIGINT command nor the scratch slot reaches below `ROM_BOUND` (R8, R107). -/
theorem romBound_le_of_bigint (hp : paramsWf s.params = true) {writes : Bool} (hb : BigintReady s writes) :
    s.params.romBound.toNat ≤ s.a.toNat ∧ s.params.romBound.toNat ≤ s.params.scratchAddr.toNat := by
  obtain ⟨-, -, -, hrom, -⟩ := hb
  obtain ⟨-, -, hslot, -⟩ := (paramsWf_iff s.params).mp hp
  exact ⟨hrom, hslot⟩

/-- A ready command may write no byte below `ROM_BOUND`: its checks and those of the parameters keep every object of
it at or above (R40). -/
theorem not_mayWrite_of_rom (h : s.Inv) {i : Instr} (hi : CommandReady i s) {x : Nat}
    (hx : x < s.params.romBound.toNat) : ¬mayWrite i s x := by
  have ⟨hp, _⟩ := h
  have hbuffer : PointerOk s.params s.a → ¬(s.a.toNat ≤ x ∧ x < s.a.toNat + bufferSize s.params) :=
    fun ⟨_, hrom, _⟩ ⟨hle, _⟩ => absurd hx (Nat.not_lt.mpr (le_trans hrom hle))
  cases i with
  | keccakF => exact hbuffer hi.2
  | keccakStep k => exact hbuffer (pointerOk_of_microStep h hi)
  | hashNew _ | hashUpdate | hashFinal | hashFinalReset | hashDigest _ => exact id
  | _ =>
    obtain ⟨ha, hslot⟩ := romBound_le_of_bigint hp hi
    simp only [mayWrite]
    omega

end

/-- Settles O58: a fault changes no memory, and the effect of a ready command writes its own bytes alone. -/
theorem commandsWriteOnlyTheirObjects : Obligations.CommandsWriteOnlyTheirObjects := by
  intro i s t h he x hx
  rcases exec_cases he with ⟨c, -, -, rfl⟩ | ⟨hi, rfl⟩
  · rfl
  · exact commandEffect_byte h hi hx

/-- Settles O57: a fault changes no memory, and no byte below `ROM_BOUND` is a ready command's own. -/
theorem commandsNeverWriteRom : Obligations.CommandsNeverWriteRom := by
  intro i s t h he x hx
  rcases exec_cases he with ⟨c, -, -, rfl⟩ | ⟨hi, rfl⟩
  · rfl
  · exact commandEffect_byte h hi (not_mayWrite_of_rom h hi hx)

/-- Settles O31: the last step writes one permutation's result over the buffer of a checked pointer. -/
theorem keccakStepFinishes : Obligations.KeccakStepFinishes := by
  intro s h hk
  have hexec : exec (.keccakStep 648) s = .next (finishSequence s) := exec_of_ready (i := .keccakStep 648) hk
  have hp := pointerOk_of_stepReady h hk
  have ⟨_, hm, _⟩ := h
  obtain ⟨-, hout, hlanes, hscratch, hframe⟩ := writeResult_spec
    (s := (s.setSeq { s.seq with active := false, next := 0, taint := false }).useDraws (if s.seq.taint then 25 else 0))
    hm hp (if s.seq.taint then drawState s.draws else keccakF s.seq.snap)
  rw [← finishSequence_eq] at hout hlanes hscratch hframe
  refine ⟨_, hexec, fun hclean => ?_, fun htaint => ?_, hscratch, hout, hframe⟩
  · simpa [hclean] using hlanes
  · simpa [htaint] using hlanes

/-! ### The host's memory accesses (R51, R58) -/

/-- Two ranges overlap exactly when they share a byte. -/
theorem rangesOverlap_iff (p n q m : Nat) :
    rangesOverlap p n q m = true ↔ ∃ x, p ≤ x ∧ x < p + n ∧ q ≤ x ∧ x < q + m := by
  simp only [rangesOverlap, Bool.and_eq_true, decide_eq_true_eq]
  constructor
  · intro h
    exact ⟨max p q, by omega⟩
  · rintro ⟨x, h⟩
    omega

/-- A step that takes a store to plain memory, outside the window and the ROM (R40, R42; logs 13 to 15). -/
theorem step_memWrite {s : State} {addr : Word} {data : List Byte} {rest : List HostAction}
    (hp : paramsWf s.params = true) (hq : s.pending = .memWrite addr data :: rest)
    (hr : addr.toNat + data.length ≤ addressSpace) (hw : ¬TouchesWindow s.params addr.toNat data.length)
    (hrom : s.params.romBound ≤ addr) :
    step s = .next
      ((taintBy (s.setPending rest) addr.toNat data.length).setMem (s.mem.writeBytes addr.toNat data)) := by
  rw [step_cons hp hq]
  rw [← inWindow_iff, Bool.not_eq_true] at hw
  simp [hostAccess, hostStore, hw, addressesExist, hr, BitVec.not_lt.mpr hrom]

/-- A step that takes a load outside the window (R42, R51; logs 14, 15). -/
theorem step_memRead {s : State} {addr : Word} {count : Nat} {rest : List HostAction}
    (hp : paramsWf s.params = true) (hq : s.pending = .memRead addr count :: rest)
    (hr : addr.toNat + count ≤ addressSpace) (hw : ¬TouchesWindow s.params addr.toNat count) :
    step s = .next ((s.setPending rest).setHostData (s.mem.bytes addr.toNat count)) :=
  (step_cons hp hq).trans (hostLoad_of_outside (s := s.setPending rest) hr hw)

/-- A range that ends below the window or starts past it has no byte in common with it. -/
theorem not_touchesWindow {c : Params} {p n : Nat}
    (h : p + n ≤ c.blockBase.toNat ∨ c.blockBase.toNat + 0x40 ≤ p) : ¬TouchesWindow c p n := by
  rintro ⟨x, hx⟩
  omega

/-- A byte string, address by address (R14). -/
theorem Mem.bytes_eq_map (m : Mem) (p n : Nat) : m.bytes p n = (List.range n).map fun i => m.byte (p + i) :=
  List.ext_getElem (by simp) fun i _ _ => by simp

/-- Settles O12: the store writes its bytes and no others, and taints by the overlap of two ranges. -/
theorem hostStoreTaintsSequence : Obligations.HostStoreTaintsSequence := by
  intro s rest addr data hp hm hq hr hw hrom
  refine ⟨_, step_memWrite hp hq hr (not_touchesWindow hw) hrom, Mem.bytes_writeBytes_same hm hr,
    fun x hx => Mem.byte_writeBytes_of_outside hm hr hx, ?_, rfl⟩
  simp [taintBy, rangesOverlap_iff, bufferSize_eq]

/-- Settles O13: a load returns the bytes of memory, and those are the bytes just stored. -/
theorem hostLoadSeesStore : Obligations.HostLoadSeesStore := by
  constructor
  · intro s rest addr count hp hq hr hw
    rw [← Mem.bytes_eq_map]
    exact step_memRead hp hq hr hw
  · intro s rest addr data hp hm hq hr hw hrom
    obtain ⟨t, hstore, hparams, hpending, hbytes⟩ :
        ∃ t, step s = .next t ∧ t.params = s.params ∧ t.pending = .memRead addr data.length :: rest
          ∧ t.mem.bytes addr.toNat data.length = data :=
      ⟨_, step_memWrite hp hq hr hw hrom, rfl, rfl, Mem.bytes_writeBytes_same hm hr⟩
    rw [← hparams] at hp hw
    refine ⟨t, _, hstore, step_memRead hp hpending hr hw, ?_⟩
    rw [hbytes]
    rfl

/-! ### Admitted ranges (R41) -/

/-- Settles O27: a range is admitted only below the end of memory and outside the window, and the default refuses
nothing else. -/
theorem memAdmitRefusesWrapAndWindow : Obligations.MemAdmitRefusesWrapAndWindow := by
  intro c p n kind _
  constructor
  · intro h
    have hw := memAdmit_window h
    rw [← Bool.not_eq_true, inWindow_iff] at hw
    exact ⟨memAdmit_range h, fun x hle hlt hin => hw ⟨x, hle, hlt, hin⟩⟩
  · rintro hdefault ⟨hr, hout⟩
    have hw : inWindow c p n = false := by
      rw [← Bool.not_eq_true, inWindow_iff]
      exact fun ⟨x, hle, hlt, hin⟩ => hout x hle hlt hin
    simp [memAdmit, hdefault, hw, hr]

/-! ### Operands as sums of limbs (R46) -/

/-- An integer of `k` limbs of `n` bytes each, the first limb least significant (R44). -/
theorem Mem.readNat_eq_sum_limbs (m : Mem) (p n k : Nat) :
    m.readNat p (n * k) = ((List.range k).map fun j => m.readNat (p + n * j) n * 2 ^ (8 * n * j)).sum := by
  induction k with
  | zero => rfl
  | succ k ih =>
    have hweight : 256 ^ (n * k) = 2 ^ (8 * n * k) := by
      rw [Nat.mul_assoc]
      exact (Nat.pow_mul 2 8 (n * k)).symm
    rw [List.range_succ, List.map_append, List.sum_append, ← ih, Nat.mul_succ, Mem.readNat_add, hweight]
    simp [Nat.mul_comm]

/-- An integer of one byte (R14). -/
theorem Mem.readNat_one (m : Mem) (p : Nat) : m.readNat p 1 = (m.byte p).toNat := rfl

/-- Settles O56: the 32 bytes are limbs of one, of four and of eight bytes. -/
theorem operandValueFromLimbs : Obligations.OperandValueFromLimbs := by
  intro m p
  refine ⟨?_, m.readNat_eq_sum_limbs p 4 8, m.readNat_eq_sum_limbs p 8 4⟩
  simpa only [Nat.one_mul, Nat.mul_one, Mem.readNat_one] using m.readNat_eq_sum_limbs p 1 32

end Sys2Proof.Machine

namespace Sys2Proof

/-! ### The fields of a command word (R59) -/

/-- The upper bits of an `ARG` are 0 where it is below their weight. -/
theorem extractLsb'_eq_zero_iff {x : BitVec 10} {start len : Nat} (h : start + len = 10) :
    x.extractLsb' start len = 0 ↔ x.toNat < 2 ^ start := by
  have hfit : x.toNat / 2 ^ start < 2 ^ len := by
    rw [Nat.div_lt_iff_lt_mul (Nat.two_pow_pos start), ← Nat.pow_add, Nat.add_comm, h]
    exact x.isLt
  rw [← BitVec.toNat_inj, BitVec.extractLsb'_toNat, Nat.shiftRight_eq_div_pow, Nat.mod_eq_of_lt hfit]
  simp [Nat.div_eq_zero_iff]

/-- A word without bits in `Z_HI` is put together from its other fields. -/
theorem commandWord_of_fields {w : Word} {u o : BitVec 4} (hz : highField w = 0)
    (hu : (unitField w).toNat = u.toNat) (ho : (opField w).toNat = o.toNat) :
    commandWord u o (argField w) = w := by
  rw [← BitVec.eq_of_toNat_eq hu, ← BitVec.eq_of_toNat_eq ho, commandWord, ← BitVec.ofNat_eq_ofNat, ← hz]
  ext i hi
  simp [unitField, opField, highField, argField]
  grind

/-! ### The mask of a BIGINT command (R60) -/

/-- The operations whose bit is set in a mask. -/
def MaskLayout.operations (l : MaskLayout) (arg : BitVec 10) : List BigintOp :=
  BigintOp.all.filter fun op => arg.getLsbD (l.bitOf op).val

theorem BigintOp.mem_all (op : BigintOp) : op ∈ BigintOp.all := by
  cases op <;> decide

theorem MaskLayout.mem_operations {l : MaskLayout} {arg : BitVec 10} {op : BigintOp} :
    op ∈ l.operations arg ↔ arg.getLsbD (l.bitOf op).val = true := by
  simp [MaskLayout.operations, BigintOp.mem_all]

section
variable {l : MaskLayout} (hl : l.wf = true)
include hl

theorem MaskLayout.bitOf_ne_carry (op : BigintOp) : l.bitOf op ≠ l.carry := fun h =>
  (List.nodup_cons.mp (of_decide_eq_true hl)).1 (h ▸ List.mem_map_of_mem op.mem_all)

theorem MaskLayout.bitOf_inj {op op' : BigintOp} : l.bitOf op = l.bitOf op' ↔ op = op' :=
  ⟨List.inj_on_of_nodup_map (List.nodup_cons.mp (of_decide_eq_true hl)).2 op.mem_all op'.mem_all, congrArg _⟩

/-- Eight distinct positions are all the bits of a mask. -/
theorem MaskLayout.eq_carry_or_bitOf (i : Fin 8) : i = l.carry ∨ ∃ op, i = l.bitOf op := by
  have hcard : (l.carry :: BigintOp.all.map l.bitOf).toFinset.card = Fintype.card (Fin 8) :=
    List.toFinset_card_of_nodup (of_decide_eq_true hl)
  have hmem := Finset.eq_univ_iff_forall.mp ((Finset.card_eq_iff_eq_univ _).mp hcard) i
  rw [List.mem_toFinset, List.mem_cons, List.mem_map] at hmem
  exact hmem.imp id fun ⟨op, _, h⟩ => ⟨op, h.symm⟩

/-- A mask is fixed by its operations and its carry-in. -/
theorem MaskLayout.mask_ext {x y : BitVec 10} (hx : x.toNat < 256) (hy : y.toNat < 256)
    (hops : ∀ op, x.getLsbD (l.bitOf op).val = y.getLsbD (l.bitOf op).val)
    (hcarry : x.getLsbD l.carry.val = y.getLsbD l.carry.val) : x = y := by
  refine BitVec.eq_of_getLsbD_eq fun i _ => ?_
  by_cases hi : i < 8
  · obtain ⟨i, rfl⟩ : ∃ j : Fin 8, j.val = i := ⟨⟨i, hi⟩, rfl⟩
    obtain rfl | ⟨op, rfl⟩ := l.eq_carry_or_bitOf hl i
    · exact hcarry
    · exact hops op
  · have hweight : 256 ≤ 2 ^ i := Nat.pow_le_pow_right (n := 2) (by decide) (Nat.le_of_not_lt hi)
    rw [BitVec.getLsbD, BitVec.getLsbD, Nat.testBit_lt_two_pow (hx.trans_le hweight),
      Nat.testBit_lt_two_pow (hy.trans_le hweight)]

theorem getLsbD_bigintArg_bitOf (op op' : BigintOp) (c : Bool) :
    (bigintArg l op c).getLsbD (l.bitOf op').val = decide (op' = op) := by
  have hbit : ((l.bitOf op).val = (l.bitOf op').val) ↔ op' = op := by
    rw [← Fin.ext_iff, l.bitOf_inj hl, eq_comm]
  have hcarry : l.carry.val ≠ (l.bitOf op').val := fun h => l.bitOf_ne_carry hl op' (Fin.ext h.symm)
  have hlt : (l.bitOf op).val < 10 := by omega
  cases c <;> simp [bigintArg, BitVec.getLsbD_twoPow, hbit, hcarry, hlt]

theorem getLsbD_bigintArg_carry (op : BigintOp) (c : Bool) : (bigintArg l op c).getLsbD l.carry.val = c := by
  have hbit : l.carry.val ≠ (l.bitOf op).val := fun h => l.bitOf_ne_carry hl op (Fin.ext h.symm)
  have hlt : l.carry.val < 10 := by omega
  cases c <;> simp [bigintArg, hbit, hlt]

theorem operations_bigintArg (op : BigintOp) (c : Bool) : l.operations (bigintArg l op c) = [op] := by
  simp only [MaskLayout.operations, getLsbD_bigintArg_bitOf hl]
  cases op <;> rfl

end

theorem bigintArg_lt (l : MaskLayout) (op : BigintOp) (c : Bool) : (bigintArg l op c).toNat < 256 := by
  have hbit (b : Fin 8) : (BitVec.twoPow 10 b.val).toNat < 2 ^ 8 := by revert b; decide
  cases c
  · simpa [bigintArg] using hbit (l.bitOf op)
  · simpa only [bigintArg, if_true, BitVec.toNat_or] using Nat.or_lt_two_pow (hbit (l.bitOf op)) (hbit l.carry)

theorem BigintOp.encode_instr (p : Params) (op : BigintOp) (c : Bool) :
    encode p (op.instr c) = commandWord 3 0 (bigintArg p.maskLayout op c) := by
  cases op <;> rfl

theorem BigintOp.wf_instr (p : Params) (op : BigintOp) (c : Bool) : (op.instr c).wf p = true := by
  cases op <;> rfl

/-! ### What each row's decoder accepts (R63) -/

theorem decodePlain_eq_ok {arg : BitVec 10} {i j : Instr} : decodePlain arg i = .ok j ↔ arg = 0 ∧ j = i := by
  fun_cases decodePlain arg i
  case case1 hz => simp [hz, eq_comm (a := j)]
  case case2 hz => exact iff_of_false nofun fun h => hz h.1

theorem decodeVariant_eq_ok {arg : BitVec 10} {f : Variant → Instr} {j : Instr} :
    decodeVariant arg f = .ok j ↔ ∃ v, arg = variantArg v ∧ j = f v := by
  constructor
  · fun_cases decodeVariant arg f
    case case1 hz =>
      rintro ⟨⟩
      have hlt : arg.toNat < 2 := (extractLsb'_eq_zero_iff rfl).mp hz
      obtain rfl | rfl : arg = 0 ∨ arg = 1 := by bv_omega
      · exact ⟨.keccak, rfl, rfl⟩
      · exact ⟨.sha3, rfl, rfl⟩
    case case2 => rintro ⟨⟩
  · rintro ⟨v, rfl, rfl⟩
    cases v <;> rfl

theorem decodeStep_eq_ok {p : Params} {arg : BitVec 10} {j : Instr} :
    decodeStep p arg = .ok j ↔ arg.toNat ≤ 648 ∧ p.backend = .hw ∧ j = .keccakStep arg := by
  by_cases hrange : arg.toNat ≤ 648
  · by_cases hbackend : p.backend = .hw <;> simp [decodeStep, hrange, hbackend, eq_comm (a := j)]
  · simp [decodeStep, hrange]

theorem decodeBigint_eq_ok {l : MaskLayout} {arg : BitVec 10} {j : Instr} :
    decodeBigint l arg = .ok j ↔
      arg.toNat < 256 ∧ ∃ op, l.operations arg = [op] ∧ j = op.instr (arg.getLsbD l.carry.val) := by
  rw [← show 2 ^ 8 = 256 from rfl, ← extractLsb'_eq_zero_iff (len := 2) rfl, MaskLayout.operations]
  fun_cases decodeBigint l arg
  case case1 hz hnone => simp [hnone]
  case case2 hz op hone => simp [hz, hone, eq_comm (a := j)]
  case case3 hz _ hone => exact iff_of_false nofun fun ⟨_, op, hop, _⟩ => hone op hop
  case case4 hz => exact iff_of_false nofun fun h => hz h.1

/-- On a well-formed layout a mask decodes exactly if it is the mask of an operation and a carry-in. -/
theorem decodeBigint_eq_ok_of_wf {l : MaskLayout} (hl : l.wf = true) {arg : BitVec 10} {j : Instr} :
    decodeBigint l arg = .ok j ↔ ∃ op c, arg = bigintArg l op c ∧ j = op.instr c := by
  rw [decodeBigint_eq_ok]
  constructor
  · rintro ⟨hlt, op, hop, rfl⟩
    refine ⟨op, _, l.mask_ext hl hlt (bigintArg_lt l op _) (fun op' => ?_) (getLsbD_bigintArg_carry hl op _).symm, rfl⟩
    rw [getLsbD_bigintArg_bitOf hl, Bool.eq_iff_iff, ← l.mem_operations, hop, List.mem_singleton, decide_eq_true_eq]
  · rintro ⟨op, c, rfl, rfl⟩
    exact ⟨bigintArg_lt l op c, op, operations_bigintArg hl op c, by rw [getLsbD_bigintArg_carry hl]⟩

/-! ### What each row's decoder rejects (R65) -/

theorem decodePlain_eq_error {arg : BitVec 10} {i : Instr} : (∃ e, decodePlain arg i = .error e) ↔ arg ≠ 0 := by
  fun_cases decodePlain arg i
  case case1 hz => simp [hz]
  case case2 hz => exact iff_of_true ⟨_, rfl⟩ hz

theorem decodeVariant_eq_error {arg : BitVec 10} {f : Variant → Instr} :
    (∃ e, decodeVariant arg f = .error e) ↔ 2 ≤ arg.toNat := by
  rw [← Nat.not_lt, ← show 2 ^ 1 = 2 from rfl, ← extractLsb'_eq_zero_iff (len := 9) rfl]
  fun_cases decodeVariant arg f
  case case1 hz => simp [hz]
  case case2 hz => exact iff_of_true ⟨_, rfl⟩ hz

theorem decodeStep_eq_error {p : Params} {arg : BitVec 10} :
    (∃ e, decodeStep p arg = .error e) ↔ 649 ≤ arg.toNat ∨ p.backend = .sw := by
  fun_cases decodeStep p arg
  case case1 hrange hhw => simp [hhw]; omega
  case case2 hrange hsw =>
    cases hb : p.backend
    · exact absurd hb hsw
    · simp
  case case3 hrange => exact iff_of_true ⟨_, rfl⟩ (.inl (by omega))

theorem decodeBigint_eq_error {l : MaskLayout} {arg : BitVec 10} :
    (∃ e, decodeBigint l arg = .error e) ↔ 256 ≤ arg.toNat ∨ (l.operations arg).length ≠ 1 := by
  rw [← Nat.not_lt, ← show 2 ^ 8 = 256 from rfl, ← extractLsb'_eq_zero_iff (len := 2) rfl, MaskLayout.operations]
  fun_cases decodeBigint l arg
  case case1 hz hnone => simp [hnone]
  case case2 hz op hone => simp [hz, hone]
  case case3 hz _ hone =>
    exact iff_of_true ⟨_, rfl⟩ (.inr fun h => (List.length_eq_one_iff.mp h).elim hone)
  case case4 hz => exact iff_of_true ⟨_, rfl⟩ (.inl hz)

/-! ### The two directions of the round trip (R63, R64) -/

/-- The mask of an operation and a carry-in decodes to their command. -/
theorem decode_encode_bigint {p : Params} (hl : p.maskLayout.wf = true) (op : BigintOp) (c : Bool) :
    decode p (encode p (op.instr c)) = .ok (op.instr c) := by
  rw [op.encode_instr]
  simpa [decode] using (decodeBigint_eq_ok_of_wf hl).mpr ⟨op, c, rfl, rfl⟩

/-- The decoder of each row accepts the `ARG` of the row's command. -/
theorem decode_encode {p : Params} (hl : p.maskLayout.wf = true) {i : Instr} (hi : i.wf p = true) :
    decode p (encode p i) = .ok i := by
  cases i with
  | keccakF => simp [encode, decode, decodePlain_eq_ok]
  | keccakStep k =>
    simp only [Instr.wf, Instr.stepInRange, Instr.inBackend, Bool.and_eq_true, decide_eq_true_eq, beq_iff_eq] at hi
    simp [encode, decode, decodeStep_eq_ok, hi]
  | hashNew v => simp [encode, decode, decodeVariant_eq_ok]
  | hashUpdate => simp [encode, decode, decodePlain_eq_ok]
  | hashFinal => simp [encode, decode, decodePlain_eq_ok]
  | hashFinalReset => simp [encode, decode, decodePlain_eq_ok]
  | hashDigest v => simp [encode, decode, decodeVariant_eq_ok]
  | bigintAdd c => exact decode_encode_bigint hl .add c
  | bigintSub c => exact decode_encode_bigint hl .sub c
  | bigintSubneg c => exact decode_encode_bigint hl .subneg c
  | bigintMullo c => exact decode_encode_bigint hl .mullo c
  | bigintMulhi c => exact decode_encode_bigint hl .mulhi c
  | bigintEq c => exact decode_encode_bigint hl .eq c
  | bigintMemcpy c => exact decode_encode_bigint hl .memcpy c

section
variable {p : Params} {w : Word} {u o : BitVec 4} {j : Instr}

theorem encode_of_decodePlain (hword : commandWord u o (argField w) = w) {i : Instr}
    (hi : i.wf p = true ∧ encode p i = commandWord u o 0) (h : decodePlain (argField w) i = .ok j) :
    j.wf p = true ∧ encode p j = w := by
  obtain ⟨hz, rfl⟩ := decodePlain_eq_ok.mp h
  rwa [← hz, hword] at hi

theorem encode_of_decodeVariant (hword : commandWord u o (argField w) = w) {f : Variant → Instr}
    (hf : ∀ v, (f v).wf p = true ∧ encode p (f v) = commandWord u o (variantArg v))
    (h : decodeVariant (argField w) f = .ok j) : j.wf p = true ∧ encode p j = w := by
  obtain ⟨v, hv, rfl⟩ := decodeVariant_eq_ok.mp h
  simpa only [← hv, hword] using hf v

theorem encode_of_decodeStep (hword : commandWord 1 1 (argField w) = w)
    (h : decodeStep p (argField w) = .ok j) : j.wf p = true ∧ encode p j = w := by
  obtain ⟨hrange, hhw, rfl⟩ := decodeStep_eq_ok.mp h
  exact ⟨by simp [Instr.wf, Instr.stepInRange, Instr.inBackend, hrange, hhw], hword⟩

theorem encode_of_decodeBigint (hl : p.maskLayout.wf = true) (hword : commandWord 3 0 (argField w) = w)
    (h : decodeBigint p.maskLayout (argField w) = .ok j) : j.wf p = true ∧ encode p j = w := by
  obtain ⟨op, c, harg, rfl⟩ := (decodeBigint_eq_ok_of_wf hl).mp h
  exact ⟨op.wf_instr p c, by rw [op.encode_instr, ← harg, hword]⟩

/-- The command of a word exists on the platform, and its fields are all that the word holds. -/
theorem wf_and_encode_of_decode (hl : p.maskLayout.wf = true) (h : decode p w = .ok j) :
    j.wf p = true ∧ encode p j = w := by
  have hword (u o : BitVec 4) (hz : ¬highField w ≠ 0) (ho : (opField w).toNat = o.toNat)
      (hu : (unitField w).toNat = u.toNat) : commandWord u o (argField w) = w :=
    commandWord_of_fields (not_not.mp hz) hu ho
  revert h
  fun_cases decode p w
  case case2 hz ho hu => exact encode_of_decodePlain (hword 1 0 hz ho hu) ⟨rfl, rfl⟩
  case case3 hz ho hu => exact encode_of_decodeStep (hword 1 1 hz ho hu)
  case case5 hz ho hu => exact encode_of_decodeVariant (hword 2 0 hz ho hu) fun _ => ⟨rfl, rfl⟩
  case case6 hz ho hu => exact encode_of_decodePlain (hword 2 1 hz ho hu) ⟨rfl, rfl⟩
  case case7 hz ho hu => exact encode_of_decodePlain (hword 2 2 hz ho hu) ⟨rfl, rfl⟩
  case case8 hz ho hu => exact encode_of_decodePlain (hword 2 3 hz ho hu) ⟨rfl, rfl⟩
  case case9 hz ho hu => exact encode_of_decodeVariant (hword 2 4 hz ho hu) fun _ => ⟨rfl, rfl⟩
  case case11 hz ho hu => exact encode_of_decodeBigint hl (hword 3 0 hz ho hu)
  all_goals exact nofun

end

end Sys2Proof

namespace Sys2Proof.Machine

/-- An unfaulted block raises `ILLEGAL_COMMAND` for a word without a command (R63, R65). -/
theorem issueCommand_of_illegal {s : State} {w : Word} (hf : s.fault = none)
    (h : ∃ e, decode s.params w = .error e) : issueCommand w s = .next (s.raise .illegalCommand w) := by
  obtain ⟨e, he⟩ := h
  simp [issueCommand, State.faulted, hf, he]

/-- Settles O1: row by row, the decoder of the row accepts the `ARG` of the command. -/
theorem decodeEncodeRoundTrip : Obligations.DecodeEncodeRoundTrip :=
  fun _ _ hl hi => decode_encode hl hi

/-- Settles O2: row by row, the `ARG` that the decoder of the row accepts is that of the command. -/
theorem encodeDecodeRoundTrip : Obligations.EncodeDecodeRoundTrip :=
  fun _ _ _ hl h => wf_and_encode_of_decode hl h

/-- Settles O3: row by row, the clauses that name the row are what its decoder rejects. -/
theorem reservedWordsAreIllegal : Obligations.ReservedWordsAreIllegal := by
  intro s w hf
  dsimp only
  rw [and_iff_left_of_imp (issueCommand_of_illegal hf)]
  fun_cases decode s.params w
  case case1 hz => exact iff_of_true (.inr (.inr (.inr (.inr (.inl hz))))) ⟨_, rfl⟩
  case case2 hz ho hu => simp [decodePlain_eq_error, not_not.mp hz, hu, ho]
  case case3 hz ho hu => simp [decodeStep_eq_error, not_not.mp hz, hu, ho]
  case case4 hz hu ho₀ ho₁ => exact iff_of_true (.inr (.inl ⟨hu, by grind⟩)) ⟨_, rfl⟩
  case case5 hz ho hu => simp [decodeVariant_eq_error, not_not.mp hz, hu, ho]
  case case6 hz ho hu => simp [decodePlain_eq_error, not_not.mp hz, hu, ho]
  case case7 hz ho hu => simp [decodePlain_eq_error, not_not.mp hz, hu, ho]
  case case8 hz ho hu => simp [decodePlain_eq_error, not_not.mp hz, hu, ho]
  case case9 hz ho hu => simp [decodeVariant_eq_error, not_not.mp hz, hu, ho]
  case case10 hz hu ho₀ ho₁ ho₂ ho₃ ho₄ => exact iff_of_true (.inr (.inr (.inl ⟨hu, by grind⟩))) ⟨_, rfl⟩
  case case11 hz ho hu => simp [decodeBigint_eq_error, MaskLayout.operations, not_not.mp hz, hu, ho]
  case case12 hz hu ho => exact iff_of_true (.inr (.inr (.inr (.inl ⟨hu, by grind⟩)))) ⟨_, rfl⟩
  case case13 hz hu₁ hu₂ hu₃ _ _ _ _ _ _ _ _ => exact iff_of_true (.inl (by grind)) ⟨_, rfl⟩

/-- Settles O4: eleven fixed words. -/
theorem tableWordsDecode : Obligations.TableWordsDecode := by
  unfold Obligations.TableWordsDecode
  decide

end Sys2Proof.Machine

namespace Sys2Proof.Machine

/-! ### The conditions of the KECCAK commands (R85, R86, R89, R126) -/

/-- A step from 1 on runs exactly when the sequence expects it (R86). -/
theorem commandReady_keccakStep {s : State} {k : BitVec 10} (hzero : k ≠ 0) :
    CommandReady (.keccakStep k) s ↔ StepReady k s := by
  rw [CommandReady, if_neg hzero]

/-- A step from 1 on that the sequence does not expect raises `STEP_SEQUENCE` (R86). -/
theorem exec_keccakStep_of_not_ready {s : State} {k : BitVec 10} (hzero : k ≠ 0) (hk : ¬StepReady k s) :
    exec (.keccakStep k) s = .next (s.raise .stepSequence (encode s.params (.keccakStep k))) := by
  rw [exec_eq_guarded, commandChecks, if_neg hzero, stepChecks, guarded_cons, guarded_cons]
  by_cases hindex : (!s.seq.active || decide (k ≠ s.seq.next)) = true
  · exact if_pos hindex
  · have hptr : s.a ≠ s.seq.ptr := fun h => hk (by simpa [StepReady, h] using hindex)
    simp [hptr]

/-- Every command but a step from 1 on checks first that no sequence is active (R89, R126). -/
theorem commandChecks_head (i : Instr) (s : State) (h : ∀ k, i = .keccakStep k → k = 0) :
    ∃ cs, commandChecks i s = sequenceCheck s (encode s.params i) :: cs := by
  cases i with
  | keccakStep k =>
    refine ⟨bufferChecks s, ?_⟩
    rw [commandChecks, if_pos (h k rfl)]
    rfl
  | _ => exact ⟨_, rfl⟩

/-- During a sequence every command but its next step raises `STEP_SEQUENCE` (R89). -/
theorem exec_of_active {i : Instr} {s : State} (hactive : s.seq.active = true)
    (hi : ¬∃ k, i = .keccakStep k ∧ k ≠ 0 ∧ k = s.seq.next ∧ s.a = s.seq.ptr) :
    exec i s = .next (s.raise .stepSequence (encode s.params i)) := by
  by_cases h : ∀ k, i = .keccakStep k → k = 0
  · obtain ⟨cs, hcs⟩ := commandChecks_head i s h
    rw [exec_eq_guarded, hcs, guarded_cons]
    exact if_pos hactive
  · push Not at h
    obtain ⟨k, rfl, hzero⟩ := h
    exact exec_keccakStep_of_not_ready hzero fun ⟨_, hnext, hptr⟩ => hi ⟨k, rfl, hzero, hnext, hptr⟩

/-- The effect of a command raises no fault (R127). -/
theorem commandEffect_fault (i : Instr) (s : State) :
    (commandEffect i s).fault = s.fault ∧ (commandEffect i s).faultInfo = s.faultInfo := by
  cases i with
  | hashUpdate =>
    obtain ⟨c, n, h⟩ := updateEffect_frame s
    simp [commandEffect, h]
  | keccakStep k =>
    obtain ⟨q, m, n, h⟩ := microStepEffect_frame k s
    simp [commandEffect, h]
  | _ => simp [commandEffect, writeResult, finalEffect_eq, finalResetEffect_eq, bigintEffect]

/-- Settles O24: both chains follow the order of the checks, and a command that passes them all has its effect. -/
theorem keccakFaultOrder : Obligations.KeccakFaultOrder := by
  refine fun s => ⟨fun i hi => ?_, fun k hzero => ?_⟩
  · have hchecks : commandChecks i s = keccakChecks s (encode s.params i) := by
      rcases hi with rfl | rfl <;> rfl
    have hready : CommandReady i s ↔ KeccakReady s := by
      rcases hi with rfl | rfl <;> rfl
    have hrun := exec_eq_guarded i s
    simp only [hchecks, keccakChecks, sequenceCheck, bufferChecks, bufferSize_eq, guarded_cons] at hrun
    split_ifs with hactive halign hrom hadmit
    · simp [hrun, hactive]
    · simp [hrun, hactive, halign]
    · simp [hrun, hactive, halign, hrom]
    · simp [hrun, hactive, halign, hrom, hadmit]
    · have hpass : KeccakReady s :=
        ⟨by simpa using hactive, not_not.mp halign, BitVec.not_lt.mp hrom, by simpa [bufferSize_eq] using hadmit⟩
      exact ⟨_, exec_of_ready (hready.mpr hpass), commandEffect_fault i s⟩
  · by_cases hk : StepReady k s
    · rw [if_neg (by simpa [StepReady] using hk)]
      exact ⟨_, exec_of_ready ((commandReady_keccakStep hzero).mpr hk), commandEffect_fault _ s⟩
    · rw [if_pos (by simpa [StepReady, imp_iff_not_or] using hk)]
      exact exec_keccakStep_of_not_ready hzero hk

/-! ### What ends a sequence (R89) -/

section
variable {s t : State}

/-- Only a micro-step has an effect on the sequence (R86). -/
theorem commandEffect_seq {i : Instr} (h : isStep i = false) : (commandEffect i s).seq = s.seq := by
  obtain ⟨-, -, -, -, -, -, -, -, -, -, hseq, -⟩ := keepsOthers_effect i s
  exact hseq h

/-- No command that exists has a step index past 648 (R61). -/
theorem stepIndex_le_of_wf {p : Params} {k : BitVec 10} (h : (Instr.keccakStep k).wf p = true) : k.toNat ≤ 648 := by
  simp only [Instr.wf, Instr.stepInRange, Bool.and_eq_true, decide_eq_true_eq] at h
  exact h.1

/-- A command that ends an active sequence is a step that the sequence expects, and not before step 648. -/
theorem exec_endsSequence {i : Instr} (hactive : s.seq.active = true) (he : exec i s = .next t)
    (hended : t.seq.active = false) : ∃ k, i = .keccakStep k ∧ s.seq.next = k ∧ ¬k < finalStep := by
  rcases exec_cases he with ⟨c, -, -, rfl⟩ | ⟨hi, rfl⟩
  · simp [hactive] at hended
  · cases i with
    | keccakStep k =>
      by_cases hzero : k = 0
      · rw [CommandReady, if_pos hzero] at hi
        obtain ⟨hidle, -⟩ := hi
        simp [hidle] at hactive
      · obtain ⟨-, hnext, -⟩ := (commandReady_keccakStep hzero).mp hi
        refine ⟨k, rfl, hnext.symm, fun hlt => ?_⟩
        rw [commandEffect, microStepEffect, if_neg hzero, if_pos hlt] at hended
        exact absurd (hactive.symm.trans hended) (by decide)
    | _ =>
      rw [commandEffect_seq rfl, hactive] at hended
      cases hended

/-- A write to the window that ends an active sequence runs `keccak.step 648`, which the sequence expects. -/
theorem windowStore_endsSequence {offset v : Word} (hl : s.params.maskLayout.wf = true) (hactive : s.seq.active = true)
    (hw : windowStore offset v s = .next t) (hended : t.seq.active = false) :
    s.seq.next = 648#10 ∧ exec (.keccakStep 648) s = .next t := by
  rcases windowStore_cases hw with ⟨-, hc⟩ | ⟨-, rfl⟩ | ⟨-, rfl⟩ | ⟨-, rfl⟩ | rfl
  · rcases issueCommand_cases hc with ⟨-, rfl⟩ | ⟨-, ⟨-, -, rfl⟩ | ⟨i, hd, he⟩⟩
    · simp [hactive] at hended
    · simp [hactive] at hended
    · obtain ⟨k, rfl, hnext, hlast⟩ := exec_endsSequence hactive he hended
      have hrange := stepIndex_le_of_wf (wf_and_encode_of_decode hl hd).1
      obtain rfl : k = 648 := by bv_omega
      exact ⟨hnext, he⟩
  all_goals simp [hactive] at hended

end

/-- Settles O23: the check for a sequence comes first, and of all accesses only a reset and the final step end one. -/
theorem sequenceLocksOutCommands : Obligations.SequenceLocksOutCommands := by
  constructor
  · intro s w i hl hf hactive hd hi
    rw [issueCommand_of_decode hf hd, exec_of_active hactive hi, (wf_and_encode_of_decode hl hd).2]
  · intro s t hactive hstep hended
    obtain ⟨hp, ⟨-, rfl⟩ | ⟨act, rest, hq, hact⟩⟩ := step_cases hstep
    · simp [hactive] at hended
    · rcases hostAccess_cases hact with ⟨offset, v, hw⟩ | ⟨d, rfl⟩ | ⟨addr, data, -, -, rfl⟩ | ⟨rfl, -⟩
      · obtain ⟨-, -, -, -, -, -, hl⟩ := (paramsWf_iff s.params).mp hp
        exact .inr (hq ▸ windowStore_endsSequence (s := s.setPending rest) hl hactive hw hended)
      · simp [hactive] at hended
      · simp [taintBy, hactive] at hended
      · exact .inl ⟨rest, hq⟩

end Sys2Proof.Machine

namespace Sys2Proof.Machine

/-! ### The KECCAK commands that run (R85, R86) -/

/-- Settles O28: a ready `keccak.f` writes the permutation of the buffer over it. -/
theorem keccakFPermutesBuffer : Obligations.KeccakFPermutesBuffer := by
  intro s hm hk
  obtain ⟨-, hout, hlanes, hscratch, hframe⟩ := writeResult_spec hm hk.2 (keccakF (s.mem.readLanes s.a.toNat))
  exact ⟨_, exec_of_ready (i := .keccakF) hk, hlanes, hscratch, hout, hframe⟩

/-- Settles O36: the 200 bytes that `keccak.f` permutes are the same in both memories. -/
theorem scratchLanesDoNotMatter : Obligations.ScratchLanesDoNotMatter := by
  intro s m hm hm' hk hsame
  obtain ⟨t, ht, htlanes, -⟩ := keccakFPermutesBuffer s hm hk
  obtain ⟨u, hu, hulanes, -⟩ := keccakFPermutesBuffer { s with mem := m } hm' hk
  have hreal : m.readLanes s.a.toNat = s.mem.readLanes s.a.toNat :=
    Mem.readLanes_congr fun x _ hx => hsame x (.inl hx)
  exact ⟨t, u, ht, hu, by rw [hulanes, htlanes, hreal]⟩

/-- Step 0 of a ready block runs (R86). -/
theorem exec_keccakStep_zero {s : State} (hk : KeccakReady s) : exec (.keccakStep 0) s = .next (startSequence s) :=
  exec_of_ready (i := .keccakStep 0) hk

/-- A step from 1 to 647 that the sequence expects runs (R86). -/
theorem exec_keccakStep_middle {s : State} {k : BitVec 10} (hzero : k ≠ 0) (hlt : k.toNat < 648)
    (hk : StepReady k s) : exec (.keccakStep k) s = .next (continueSequence s k) := by
  have hlast : k < finalStep := hlt
  rw [exec_of_ready ((commandReady_keccakStep hzero).mpr hk), commandEffect, microStepEffect, if_neg hzero,
    if_pos hlast]

/-- The final step that the sequence expects runs (R86). -/
theorem exec_keccakStep_last {s : State} (hk : StepReady 648 s) : exec (.keccakStep 648) s = .next (finishSequence s) :=
  exec_of_ready (i := .keccakStep 648) hk

/-- A scrambled buffer after a change of the sequence: every lane is a draw, and nothing else changes (R86, R88). -/
theorem scrambleBuffer_setSeq {s : State} (hm : s.mem.wf) (hp : PointerOk s.params s.a) (q : SeqState) :
    SameOutside s.mem (scrambleBuffer (s.setSeq q)).mem s.a.toNat (bufferSize s.params)
      ∧ (∀ j, j < 25 + s.params.scratchLanes →
          (scrambleBuffer (s.setSeq q)).mem.readLane (s.a.toNat + 8 * j) = Config.draw (s.draws + j))
      ∧ scrambleBuffer (s.setSeq q)
          = { s with
              mem := (scrambleBuffer (s.setSeq q)).mem
              seq := q
              draws := s.draws + (25 + s.params.scratchLanes) } :=
  (scrambleBuffer_spec (s := s.setSeq q) hm hp).2

/-- Settles O29: a ready step 0 scrambles the buffer after the snapshot. -/
theorem keccakStepZeroStarts : Obligations.KeccakStepZeroStarts := by
  intro s hm hk
  obtain ⟨hout, hdrawn, hframe⟩ := scrambleBuffer_setSeq hm hk.2 _
  exact ⟨_, exec_keccakStep_zero hk, rfl, hdrawn, hout, hframe⟩

/-- Settles O30: a step that the sequence expects scrambles the buffer of the sequence's checked pointer. -/
theorem keccakStepContinues : Obligations.KeccakStepContinues := by
  intro s k h hzero hlt hk
  have ⟨_, hm, _⟩ := h
  obtain ⟨hout, hdrawn, hframe⟩ := scrambleBuffer_setSeq hm (pointerOk_of_stepReady h hk) _
  exact ⟨_, exec_keccakStep_middle hzero hlt hk, rfl, hdrawn, hout, hframe⟩

/-! ### The 649 micro-steps (R87) -/

theorem SameOutside.trans {m₁ m₂ m₃ : Mem} {p n : Nat} (h₁ : SameOutside m₁ m₂ p n) (h₂ : SameOutside m₂ m₃ p n) :
    SameOutside m₁ m₃ p n :=
  fun x hx => (h₂ x hx).trans (h₁ x hx)

/-- `s` after its first `n` micro-steps, but for memory, which is `m`: the sequence expects step `n`, and each step has
drawn every lane of the buffer (R86, R88). -/
def midSequence (s : State) (n : Nat) (m : Mem) : State :=
  { s with
    mem := m
    seq :=
      { active := true, next := BitVec.ofNat 10 n, ptr := s.a, snap := s.mem.readLanes s.a.toNat, taint := false }
    draws := s.draws + n * (25 + s.params.scratchLanes) }

/-- What the first `n` micro-steps leave of `s`: memory has changed inside the buffer alone (R86, R88). -/
def AfterSteps (s : State) (n : Nat) (t : State) : Prop :=
  ∃ m, m.wf ∧ SameOutside s.mem m s.a.toNat (bufferSize s.params) ∧ t = midSequence s n m

section
variable {s : State} {n : Nat} {m : Mem}

/-- Step 0 scrambles the buffer (R86). -/
theorem startSequence_eq (s : State) :
    startSequence s
      = midSequence s 1 (s.mem.writeLanes s.a.toNat (drawLanes s.draws (25 + s.params.scratchLanes))) := by
  simp [startSequence, scrambleBuffer, midSequence, State.setSeq, State.setMem, State.useDraws]

/-- So does a step from 1 to 647, and the sequence expects the next one (R86). -/
theorem continueSequence_midSequence :
    continueSequence (midSequence s n m) (BitVec.ofNat 10 n)
      = midSequence s (n + 1)
          (m.writeLanes s.a.toNat (drawLanes (midSequence s n m).draws (25 + s.params.scratchLanes))) := by
  simp [continueSequence, scrambleBuffer, midSequence, State.setSeq, State.setMem, State.useDraws, BitVec.ofNat_add,
    Nat.add_mul, Nat.add_assoc]

/-- Draws over the whole buffer are inside it. -/
theorem afterSteps_scrambled (hp : PointerOk s.params s.a) (hm : m.wf)
    (hout : SameOutside s.mem m s.a.toNat (bufferSize s.params)) (c : Nat) :
    AfterSteps s n (midSequence s n (m.writeLanes s.a.toNat (drawLanes c (25 + s.params.scratchLanes)))) := by
  obtain ⟨hwf, hout', -⟩ := writeLanes_buffer (s := s.setMem m) hm hp (length_drawLanes c _)
  exact ⟨_, hwf, hout.trans hout', rfl⟩

/-- The steps before the last all run (R86). -/
theorem microSteps_succ (hm : s.mem.wf) (hk : KeccakReady s) (hlt : n < 648) :
    ∃ t, microSteps s (n + 1) = .next t ∧ AfterSteps s (n + 1) t := by
  induction n with
  | zero =>
    refine ⟨_, exec_keccakStep_zero hk, ?_⟩
    rw [startSequence_eq]
    exact afterSteps_scrambled hk.2 hm (fun _ _ => rfl) _
  | succ n ih =>
    obtain ⟨-, ht, m, hwf, hout, rfl⟩ := ih (by omega)
    have hready : StepReady (BitVec.ofNat 10 (n + 1)) (midSequence s (n + 1) m) := ⟨rfl, rfl, rfl⟩
    have hindex : (BitVec.ofNat 10 (n + 1)).toNat = n + 1 := Nat.mod_eq_of_lt (by omega)
    have hzero : BitVec.ofNat 10 (n + 1) ≠ 0 := fun h => by simp [h] at hindex
    have hstep := exec_keccakStep_middle hzero (by omega) hready
    rw [continueSequence_midSequence] at hstep
    have hrun : microSteps s (n + 2) = exec (.keccakStep (BitVec.ofNat 10 (n + 1))) (midSequence s (n + 1) m) := by
      rw [microSteps, ht]
    exact ⟨_, hrun.trans hstep, afterSteps_scrambled hk.2 hwf hout _⟩

/-- An untainted sequence ends with the permutation of its snapshot in the buffer (R86). -/
theorem exec_keccakStep_last_of_clean {t : State} (hm : t.mem.wf) (hp : PointerOk t.params t.a)
    (hk : StepReady 648 t) (hclean : t.seq.taint = false) :
    ∃ u, exec (.keccakStep 648) t = .next u
      ∧ u.mem.readLanes t.a.toNat = keccakF t.seq.snap
      ∧ (∀ j, j < t.params.scratchLanes → u.mem.readLane (t.a.toNat + 8 * (25 + j)) = Config.draw (t.draws + j))
      ∧ SameOutside t.mem u.mem t.a.toNat (bufferSize t.params)
      ∧ u.seq = { t.seq with active := false, next := 0, taint := false } := by
  obtain ⟨-, hout, hlanes, hscratch, -⟩ := writeResult_spec
    (s := t.setSeq { t.seq with active := false, next := 0, taint := false }) hm hp (keccakF t.seq.snap)
  have hfinish := exec_keccakStep_last hk
  rw [finishSequence, hclean] at hfinish
  exact ⟨_, hfinish, hlanes, hscratch, hout, rfl⟩

end

/-- Settles O32: the steps before the last all run and only scramble the buffer; the last one writes what `keccak.f`
writes. -/
theorem microStepsEqualOnePermutation : Obligations.MicroStepsEqualOnePermutation := by
  intro s hm hk
  obtain ⟨-, ht, m, hwf, hout, rfl⟩ := microSteps_succ (n := 647) hm hk (by decide)
  obtain ⟨t, hlast, hlanes, hscratch, hout', hseq⟩ :=
    exec_keccakStep_last_of_clean (t := midSequence s 648 m) hwf hk.2 ⟨rfl, rfl, rfl⟩ rfl
  obtain ⟨u, hu, hulanes, -⟩ := keccakFPermutesBuffer s hm hk
  have hrun : microSteps s 649 = .next t := by
    rw [microSteps, ht]
    exact hlast
  refine ⟨t, u, hrun, hu, hlanes, hlanes.trans hulanes.symm, hscratch, hout.trans hout', ?_, ?_⟩ <;> rw [hseq]

end Sys2Proof.Machine

namespace Sys2Proof.Machine

/-! ### The lane-position table (R75 to R77) -/

/-- The table is the inverse of π, once per round (R75). -/
theorem lanePos_eq_iterate (r : Nat) (q : Fin 25) : lanePos r q = piInv^[r] q := by
  induction r generalizing q with
  | zero => rfl
  | succ r ih => exact ih (piInv q)

theorem lanePos_piInv (r : Nat) (q : Fin 25) : lanePos r (piInv q) = lanePos (r + 1) q := rfl

/-- Lane 0 never moves (R76). -/
@[simp] theorem lanePos_zero_lane (r : Nat) : lanePos r 0 = 0 := by
  rw [lanePos_eq_iterate]
  exact Function.iterate_fixed rfl r

/-- After 24 rounds every lane is back at its standard index (R76). -/
theorem piInv_isPeriodicPt (q : Fin 25) : Function.IsPeriodicPt piInv 24 q := by
  revert q
  decide

/-- No lane but lane 0 is back after 8 or after 12 rounds; one of these a shorter return would divide. -/
theorem piInv_not_isPeriodicPt {q : Fin 25} (hq : q ≠ 0) :
    ¬Function.IsPeriodicPt piInv 8 q ∧ ¬Function.IsPeriodicPt piInv 12 q := by
  revert q
  decide

/-- A proper part of 24 divides 8 or 12. -/
theorem gcd_24_dvd {n : Nat} (hpos : 0 < n) (hlt : n < 24) : n.gcd 24 ∣ 8 ∨ n.gcd 24 ∣ 12 := by
  interval_cases n <;> decide

/-- Settles O34: the period of a lane divides 24, and the period of a lane that moves divides neither 8 nor 12. -/
theorem laneTableReturnsAfter24Rounds : Obligations.LaneTableReturnsAfter24Rounds := by
  refine ⟨fun q => ?_, lanePos_zero_lane, fun q hq n hpos hlt hback => ?_⟩
  · rw [lanePos_eq_iterate]
    exact piInv_isPeriodicPt q
  · rw [lanePos_eq_iterate] at hback
    have hgcd := Function.IsPeriodicPt.gcd (m := n) hback (piInv_isPeriodicPt q)
    obtain ⟨h8, h12⟩ := piInv_not_isPeriodicPt hq
    rcases gcd_24_dvd hpos hlt with h | h
    · exact h8 (hgcd.trans_dvd h)
    · exact h12 (hgcd.trans_dvd h)

/-- The physical lane of logical lane `q` holds `q` (R77). -/
@[simp] theorem laneAt_lanePos (r : Nat) (q : Fin 25) : laneAt r (lanePos r q) = q := by
  induction r generalizing q with
  | zero => rfl
  | succ r ih => rw [laneAt, lanePos, ih, piPos_piInv]

theorem lanePos_injective (r : Nat) : Function.Injective (lanePos r) :=
  Function.LeftInverse.injective (laneAt_lanePos r)

/-- No lane but lane 0 comes to its place (R76). -/
theorem lanePos_eq_zero {r : Nat} {q : Fin 25} : lanePos r q = 0 ↔ q = 0 := by
  simpa only [lanePos_zero_lane] using (lanePos_injective r).eq_iff (a := q) (b := 0)

/-! ### The circuit-shaped algorithm, seen through the table (R78 to R82) -/

/-- The logical lanes that the physical lanes `l` hold at the start of round `r` (R75). -/
def logicalLanes (r : Nat) (l : Lanes) : Lanes :=
  Vector.ofFn fun q => l[lanePos r q]

@[simp] theorem getElem_logicalLanes (r : Nat) (l : Lanes) (q : Fin 25) :
    (logicalLanes r l)[q.val] = l[(lanePos r q).val] := by
  simp [logicalLanes]

/-- Two states agree when all their lanes do. -/
theorem lanes_ext {l m : Lanes} (h : ∀ q : Fin 25, l[q] = m[q]) : l = m :=
  Vector.ext fun i hi => h ⟨i, hi⟩

/-- A table that is back at its start shows the lanes as they are (R76). -/
theorem logicalLanes_of_returned {r : Nat} (h : ∀ q, lanePos r q = q) (l : Lanes) : logicalLanes r l = l :=
  lanes_ext fun q => by simp [h]

/-- Lane 0 is seen in its own place (R76). -/
@[simp] theorem logicalLanes_lane_zero (r : Nat) (l : Lanes) : (logicalLanes r l)[0] = l[0] := by
  simpa using getElem_logicalLanes r l 0

/-- A write of lane 0, read back. -/
theorem getElem_set_lane_zero (l : Lanes) (v : Lane) (q : Fin 25) :
    (l.set 0 v)[q.val] = if q = 0 then v else l[q.val] := by
  rw [Vector.getElem_set]
  exact if_congr (by rw [eq_comm, Fin.ext_iff]; rfl) rfl rfl

/-- Lane 0 stands still, so the deferred ι of round `r` is ι on the logical lanes (R73, R78). -/
theorem logicalLanes_circuitIota (r : Nat) (l : Lanes) :
    logicalLanes (r + 1) (circuitIota (r + 1) l) = iota r (logicalLanes (r + 1) l) :=
  lanes_ext fun q => by simp [circuitIota, iota, deferredConstant, getElem_set_lane_zero, lanePos_eq_zero]

/-- The scratch lanes hold the column parities of the logical lanes (R69, R78). -/
theorem circuitParity_eq (r : Nat) (l : Lanes) : circuitParity r l = columnParity (logicalLanes r l) := by
  simp only [circuitParity, columnParity, Fin.getElem_fin, getElem_logicalLanes]

/-- Steps 1 to 3 are θ and ρ on the logical lanes (R78 to R80). -/
theorem logicalLanes_circuitRotate (r : Nat) (l : Lanes) :
    logicalLanes r (circuitRotate r (circuitShuffle (circuitParity r l)) l) = rho (theta (logicalLanes r l)) := by
  refine lanes_ext fun q => ?_
  rw [circuitParity_eq]
  simp [circuitRotate, rotAmount, rho, theta, circuitShuffle, thetaMix]

/-- Step 4 is π and χ, its results in the places of the next round (R81). -/
theorem logicalLanes_circuitChi (r : Nat) (l : Lanes) :
    logicalLanes (r + 1) (circuitChi r l) = chi (piStep (logicalLanes r l)) := by
  refine lanes_ext fun q => ?_
  simp [circuitChi, chi, piStep, lanePos_piInv]

/-- The circuit after `r` rounds, with the constant that it still defers, holds the state after `r` rounds (R84). -/
theorem logicalLanes_circuitRounds (l : Lanes) (r : Nat) :
    logicalLanes r (circuitIota r (circuitRounds l r)) = keccakRounds l r := by
  induction r with
  | zero =>
    rw [logicalLanes_of_returned fun _ => rfl]
    simp [circuitIota, circuitRounds, keccakRounds, deferredConstant]
  | succ r ih =>
    rw [logicalLanes_circuitIota, circuitRounds, circuitRound, logicalLanes_circuitChi, logicalLanes_circuitRotate, ih]
    rfl

/-- The constant after round 23 is the one that round 24 would start with (R78, R82). -/
theorem circuitF_eq_circuitIota (l : Lanes) : circuitF l = circuitIota 24 (circuitRounds l 24) := rfl

/-- Settles O33: through the table the circuit runs the rounds, and after 24 of them the table is back at its start. -/
theorem circuitAlgorithmIsKeccakF : Obligations.CircuitAlgorithmIsKeccakF := by
  intro l
  obtain ⟨hreturned, -, -⟩ := laneTableReturnsAfter24Rounds
  rw [keccakF, ← logicalLanes_circuitRounds, logicalLanes_of_returned hreturned, circuitF_eq_circuitIota]

/-- Settles O35: the kernel evaluates the two permutations. -/
theorem knownAnswerPermutation : Obligations.KnownAnswerPermutation := by
  unfold Obligations.KnownAnswerPermutation
  decide +kernel

end Sys2Proof.Machine

namespace Sys2Proof.Machine

/-! ### The cursor after absorption (R94, R97) -/

section
variable {t : HashCtx}

/-- One byte moves the cursor on, modulo the rate (R94). -/
theorem absorbByte_filled (h : t.filled < 136) (v : Byte) : (absorbByte t v).filled = (t.filled + 1) % 136 := by
  by_cases hfull : t.filled = 135
  · rw [absorbByte, trigger_filled, putByte_filled, hfull]
    rfl
  · rw [absorbByte_of_room (by omega), putByte_filled, Nat.mod_eq_of_lt (by omega)]

theorem foldl_absorbByte_filled (h : t.filled < 136) (vs : List Byte) :
    (vs.foldl absorbByte t).filled = (t.filled + vs.length) % 136 := by
  induction vs generalizing t with
  | nil => exact (Nat.mod_eq_of_lt h).symm
  | cons v vs ih =>
    rw [List.foldl_cons, ih (absorbByte_filled_lt h v), absorbByte_filled h, List.length_cons, Nat.mod_add_mod]
    congr 1
    omega

/-- Any input moves the cursor on by its length, modulo the rate (R97). -/
theorem absorb_filled (h : t.filled < 136) (data : List Byte) :
    (absorb t data).filled = (t.filled + data.length) % 136 := by
  rw [absorb_eq_foldl h, foldl_absorbByte_filled h]

/-- Input in two chunks is the input at once (R97). -/
theorem absorb_append (h : t.filled < 136) (data more : List Byte) :
    absorb (absorb t data) more = absorb t (data ++ more) := by
  rw [absorb_eq_foldl (absorb_filled_lt h data), absorb_eq_foldl h, absorb_eq_foldl h, List.foldl_append]

/-- A cursor that starts at `f` below the rate is at 135 once for each full block (R97). -/
theorem countP_cursor_eq_135 {f : Nat} (h : f < 136) (n : Nat) :
    (List.range n).countP (fun i => decide ((f + i) % 136 = 135)) = (f + n) / 136 := by
  induction n with
  | zero => exact (Nat.div_eq_of_lt h).symm
  | succ n ih =>
    rw [List.range_succ, List.countP_append, ih, List.countP_singleton]
    simp only [decide_eq_true_eq]
    split <;> omega

/-- The bytes absorbed at cursor 135 are as many as the permutations (R97). -/
theorem countP_absorb_at_135 (h : t.filled < 136) (data : List Byte) :
    (List.range data.length).countP (fun i => decide ((absorb t (data.take i)).filled = 135))
      = (t.filled + data.length) / 136 := by
  rw [← countP_cursor_eq_135 h]
  refine List.countP_congr fun i hi => ?_
  have hlen : (data.take i).length = i := List.length_take_of_le (List.mem_range.mp hi).le
  rw [absorb_filled h, hlen]

/-- A byte below cursor 135 goes to its place in its lane (R92, R95). -/
theorem absorb_singleton_of_lt (h : t.filled < 135) (b : Byte) :
    absorb t [b] =
      { t with
        lanes := t.lanes.set (t.filled / 8) (t.lanes[t.filled / 8] ^^^ (b.setWidth 64 <<< (8 * (t.filled % 8))))
        filled := t.filled + 1 } := by
  rw [absorb_eq_foldl (by omega), List.foldl_cons, List.foldl_nil, absorbByte_of_room (by omega)]
  exact putByte_eq t b (by omega)

/-- A byte at cursor 135 fills the block, which is permuted (R93, R94). -/
theorem absorb_singleton_of_eq (h : t.filled = 135) (b : Byte) :
    absorb t [b] =
      { t with lanes := keccakF (t.lanes.set 16 (t.lanes[16] ^^^ (b.setWidth 64 <<< 56))), filled := 0 } := by
  have hbyte := putByte_eq t b (by omega)
  have hfull : (putByte t b).filled = rate := congrArg (· + 1) h
  rw [absorb_eq_foldl (by omega), List.foldl_cons, List.foldl_nil, absorbByte, trigger_of_full _ hfull, hbyte]
  simp only [h, Nat.reduceDiv, Nat.reduceMod, Nat.reduceMul]

end

/-- Settles O39: the phases follow one another as absorption byte by byte does. -/
theorem absorbIsBytewise : Obligations.AbsorbIsBytewise :=
  fun _ data h => absorb_eq_foldl h data

/-- Settles O40: one byte in its two cases, then the cursor, which also counts the permutations. -/
theorem absorbCursorAndChunking : Obligations.AbsorbCursorAndChunking :=
  fun _ data more b h =>
    ⟨fun hlt => absorb_singleton_of_lt hlt b, fun heq => absorb_singleton_of_eq heq b, absorb_filled h data,
      countP_absorb_at_135 h data, absorb_append h data more⟩

/-! ### The padding (R98, R99) -/

/-- One lane changes, by its XOR. -/
theorem getElem_xorLane (ls : Lanes) (i : Nat) (v : Lane) (j : Nat) (h : j < 25) :
    (xorLane ls i v)[j] = ls[j] ^^^ (if j = i then v else 0) := by
  by_cases hj : j = i
  · subst hj
    simp [xorLane_of_lt ls h]
  · simp [xorLane, hj, Ne.symm hj]

/-- The padding is two XORs into lanes (R98). -/
theorem getElem_pad_lanes (t : HashCtx) (i : Nat) (h : i < 25) :
    (pad t).lanes[i]
      = t.lanes[i]
        ^^^ (if i = t.filled / 8 then (paddingByte t.variant).setWidth 64 <<< (8 * (t.filled % 8)) else 0)
        ^^^ (if i = 16 then domainBit else 0) := by
  simp only [pad, xorByte, getElem_xorLane]

/-- The padding byte in a lane (R98). -/
theorem setWidth_paddingByte (v : Variant) :
    (paddingByte v).setWidth 64 = if v = .keccak then (0x01 : Lane) else 0x06 := by
  cases v <;> rfl

/-- Settles O41: at cursor 135 both parts of the padding fall into lane 16, at cursor 0 they are in different lanes. -/
theorem paddingPlacesBytes : Obligations.PaddingPlacesBytes := by
  intro t _ b
  have hb : (paddingByte t.variant).setWidth 64 = b := setWidth_paddingByte t.variant
  refine ⟨fun i h => ?_, fun hlast => ?_, fun hfirst => ?_⟩
  · rw [getElem_pad_lanes, hb, domainBit]
  · rw [getElem_pad_lanes, hlast, BitVec.xor_assoc]
    cases t.variant <;> rfl
  · rw [getElem_pad_lanes, hb, hfirst]
    simp

/-! ### The commands of the HASH unit (R101 to R105) -/

/-- Settles O37: a ready `hash.new` has its effect. -/
theorem hashNewStartsContext : Obligations.HashNewStartsContext :=
  fun _ v h => exec_of_ready (i := .hashNew v) h

/-- `hash.update` absorbs its input, and nothing else of the context but the scratch lanes changes (R102). -/
theorem updateEffect_ctx (s : State) :
    (updateEffect s).ctx = { absorb s.ctx (inputBytes s) with scratch := (updateEffect s).ctx.scratch } := by
  by_cases h : permutations s.ctx s.len.toNat = 0
  · rw [updateEffect_of_none h]
  · rw [updateEffect_of_some h]

/-- After `hash.update` the context is still ACTIVE and no sequence has begun (R102). -/
theorem finalReady_updateEffect {s : State} (h : UpdateReady s) : FinalReady (updateEffect s) := by
  obtain ⟨hidle, hphase, -⟩ := h
  obtain ⟨c, n, hframe⟩ := updateEffect_frame s
  refine ⟨by rw [hframe, hidle], ?_⟩
  rw [updateEffect_ctx, absorb_phase, hphase]

/-- Settles O38: a ready `hash.update` has its effect, and its `LEN` bytes are absorbed byte by byte. -/
theorem hashUpdateAbsorbs : Obligations.HashUpdateAbsorbs := by
  intro s hcursor h
  have hctx := updateEffect_ctx s
  obtain ⟨-, hphase⟩ := finalReady_updateEffect h
  obtain ⟨c, n, hframe⟩ := updateEffect_frame s
  refine ⟨updateEffect s, exec_of_ready (i := .hashUpdate) h, ?_, ?_, ?_, hphase, fun hroom => ?_, ?_⟩
  · rw [hctx, absorb_eq_foldl hcursor]
    rfl
  · rw [hctx, absorb_filled hcursor, inputBytes, Mem.length_bytes]
  · rw [hctx, absorb_variant]
  · rw [updateEffect_of_none (Nat.div_eq_of_lt hroom)]
    exact ⟨absorb_scratch _ _, rfl⟩
  · rw [hframe]

theorem sameSponge_absorb {t u : HashCtx} (h : SameSponge t u) (ht : t.filled < 136) (data : List Byte) :
    SameSponge (absorb t data) (absorb u data) := by
  obtain ⟨-, hfilled, -⟩ := id h
  rw [absorb_eq_foldl ht, absorb_eq_foldl (hfilled ▸ ht)]
  exact sameSponge_foldl h data

/-- `hash.update` leaves what any context that differs in scratch lanes or phase alone would have absorbed (R102). -/
theorem sameSponge_updateEffect {s : State} {t : HashCtx} (h : SameSponge t s.ctx) (ht : t.filled < 136) :
    SameSponge (absorb t (inputBytes s)) (updateEffect s).ctx := by
  rw [updateEffect_ctx]
  exact sameSponge_absorb h ht (inputBytes s)

/-- The digest reads the lanes, the cursor and the variant alone (R98). -/
theorem padAndSqueeze_congr {t u : HashCtx} (h : SameSponge t u) : padAndSqueeze t = padAndSqueeze u :=
  congrArg (fun ls => squeeze (keccakF ls)) (pad_lanes_congr h)

/-- Settles O45: the three commands run one after the other, and the one-shot digest is of a context that differs from
theirs in its scratch lanes alone. -/
theorem digestEqualsStreamedDigest : Obligations.DigestEqualsStreamedDigest := by
  intro s v h
  obtain ⟨hidle, hinput⟩ := id h
  have hupdate : UpdateReady (s.setCtx (freshCtx s.ctx v)) := ⟨hidle, rfl, hinput⟩
  have hfresh : SameSponge (freshCtx (HashCtx.initial 0) v) (s.setCtx (freshCtx s.ctx v)).ctx := ⟨rfl, rfl, rfl⟩
  refine ⟨_, _, _, _, exec_of_ready (i := .hashNew v) hidle, exec_of_ready (i := .hashUpdate) hupdate,
    exec_of_ready (i := .hashFinal) (finalReady_updateEffect hupdate), exec_of_ready (i := .hashDigest v) h, ?_, rfl,
    rfl⟩
  exact congrArg digestWords (padAndSqueeze_congr (sameSponge_updateEffect hfresh (Nat.succ_pos 135)))

/-! ### The conditions of the HASH commands (R126) -/

section
variable {s e : State} {c : Check} {cs : List Check}

/-- A condition that fails decides (R126). -/
theorem guarded_cons_of_fails (h : c.fails = true) : guarded s (c :: cs) e = .next (s.raise c.code c.info) := by
  rw [guarded_cons, if_pos h]

/-- A condition that holds leaves it to the later ones (R126). -/
theorem guarded_cons_of_pass (h : c.fails = false) : guarded s (c :: cs) e = guarded s cs e := by
  rw [guarded_cons, h]
  rfl

end

/-- Settles O25: an active sequence comes first, then a context that is not ACTIVE, then an input that may not be
read. -/
theorem hashFaultOrder : Obligations.HashFaultOrder := by
  refine fun s v => ⟨fun hactive i hi => ?_, fun hidle hphase i hi => ?_, fun hidle hlen hrefused => ?_⟩
  · refine exec_of_active hactive ?_
    rintro ⟨k, rfl, -⟩
    exact absurd hi Bool.false_ne_true
  · have hcontext : (contextCheck s (encode s.params i)).fails = true := decide_eq_true hphase
    rcases hi with rfl | rfl | rfl <;> exact (guarded_cons_of_pass hidle).trans (guarded_cons_of_fails hcontext)
  · have hinput : (inputCheck s).fails = true := by simp [inputCheck, hlen, hrefused]
    refine ⟨(guarded_cons_of_pass hidle).trans (guarded_cons_of_fails hinput), fun hphase => ?_⟩
    have hcontext := (contextCheck_pass s (encode s.params .hashUpdate)).mpr hphase
    exact (guarded_cons_of_pass hidle).trans
      ((guarded_cons_of_pass hcontext).trans (guarded_cons_of_fails hinput))

end Sys2Proof.Machine

namespace Sys2Proof.Machine

/-! ### The seven operations as one family (R107) -/

/-- The operation function of the BIGINT frame (R114 to R120); `drawn` is the bit that mullo returns. -/
def bigintResult (op : BigintOp) (c drawn : Bool) (x y : U256) : U256 × Bool :=
  match op with
  | .add => opAdd x y c
  | .sub => opSub x y c
  | .subneg => opSubneg x y c
  | .mullo => opMullo x y drawn
  | .mulhi => opMulhi x y
  | .eq => opEq x y
  | .memcpy => opMemcpy y c

/-- How many free values an operation uses: one for mullo (R118). -/
def bigintDraws : BigintOp → Nat
  | .mullo => 1
  | _ => 0

theorem State.useDraws_zero (s : State) : s.useDraws 0 = s := rfl

section
variable (op : BigintOp) (c : Bool) (s : State)

theorem commandChecks_bigint :
    commandChecks (op.instr c) s = bigintChecks s (decide (op ≠ .eq)) (encode s.params (op.instr c)) := by
  cases op <;> rfl

theorem commandReady_bigint : CommandReady (op.instr c) s ↔ BigintReady s (decide (op ≠ .eq)) := by
  cases op <;> rfl

theorem commandEffect_bigint :
    commandEffect (op.instr c) s
      = (bigintEffect s (decide (op ≠ .eq)) (bigintResult op c (Config.drawBit s.draws))).useDraws
          (bigintDraws op) := by
  cases op with
  | mullo => rfl
  | _ => exact (State.useDraws_zero _).symm

end

/-! ### The conditions of the BIGINT commands (R107, R126) -/

section
variable {s e : State} {check : Check} {cs : List Check}

/-- A chain of conditions, read from the front: the first one decides, or the later ones do (R126). -/
theorem ite_of_guarded_cons {run : Host.Outcome State Fault Refusal} {fails rest : Prop} [Decidable fails]
    (hfails : check.fails = true ↔ fails) (hrest : run = guarded s cs e → rest)
    (hrun : run = guarded s (check :: cs) e) :
    if fails then run = .next (s.raise check.code check.info) else rest := by
  split_ifs with h
  · exact hrun.trans (guarded_cons_of_fails (hfails.mpr h))
  · exact hrest (hrun.trans (guarded_cons_of_pass (by simpa using mt hfails.mp h)))

end

/-- Settles O26: the chain follows the order of the checks, and a command that passes them all has its effect, which
raises no fault. -/
theorem bigintFaultOrder : Obligations.BigintFaultOrder := by
  intro s op c
  have hrun := exec_eq_guarded (op.instr c) s
  rw [commandChecks_bigint] at hrun
  have hscratch : (needsCopy s && decide (s.a = s.params.scratchAddr)) = true
      ↔ s.b < s.params.romBound ∧ s.a = s.params.scratchAddr := by
    simp [needsCopy]
  have hdest : (!memAdmit s.params s.a.toNat 32 .read
        || (decide (op ≠ .eq) && !memAdmit s.params s.a.toNat 32 .write)) = true
      ↔ memAdmit s.params s.a.toNat 32 .read = false
        ∨ op ≠ .eq ∧ memAdmit s.params s.a.toNat 32 .write = false := by
    simp
  have hslot : (needsCopy s && !memAdmit s.params s.params.scratchAddr.toNat 32 .write) = true
      ↔ s.b < s.params.romBound ∧ memAdmit s.params s.params.scratchAddr.toNat 32 .write = false := by
    simp [needsCopy]
  have hpass (h : exec (op.instr c) s = .next (commandEffect (op.instr c) s)) :
      ∃ t, exec (op.instr c) s = .next t ∧ t.fault = s.fault ∧ t.faultInfo = s.faultInfo :=
    ⟨_, h, commandEffect_fault (op.instr c) s⟩
  exact
    ite_of_guarded_cons Iff.rfl
    (ite_of_guarded_cons decide_eq_true_iff
    (ite_of_guarded_cons decide_eq_true_iff
    (ite_of_guarded_cons decide_eq_true_iff
    (ite_of_guarded_cons decide_eq_true_iff
    (ite_of_guarded_cons hscratch
    (ite_of_guarded_cons hdest
    (ite_of_guarded_cons (Bool.not_eq_true' _).to_iff
    (ite_of_guarded_cons hslot hpass)))))))) hrun

/-! ### What a ready BIGINT command leaves (R107) -/

/-- The operand `a` as a 256-bit value (R46). -/
def State.valueA (s : State) : U256 := BitVec.ofNat 256 s.operandA

/-- The operand `b` as a 256-bit value (R46). -/
def State.valueB (s : State) : U256 := BitVec.ofNat 256 s.operandB

@[simp] theorem State.toNat_valueA (s : State) : s.valueA.toNat = s.operandA :=
  Mem.toNat_readU256 s.mem s.a.toNat

@[simp] theorem State.toNat_valueB (s : State) : s.valueB.toNat = s.operandB :=
  Mem.toNat_readU256 s.mem s.b.toNat

/-- The result and the bit of an operation on the operands of a state (R107). -/
def bigintResultIn (op : BigintOp) (c : Bool) (s : State) : U256 × Bool :=
  bigintResult op c (Config.drawBit s.draws) s.valueA s.valueB

section
variable {s t : State} {writes bit : Bool} {res drawn : Nat}

theorem BigintDone.useDraws (h : BigintDone s t writes res bit 0) (n : Nat) :
    BigintDone s (t.useDraws n) writes res bit n := by
  obtain ⟨hstate, hmem⟩ := h
  refine ⟨?_, hmem⟩
  rw [hstate]
  rfl

/-- A ready BIGINT command completes with the result of its operation on the two operands. -/
theorem exec_bigint (op : BigintOp) (c : Bool) (hp : paramsWf s.params = true) (hm : s.mem.wf)
    (h : BigintReady s (decide (op ≠ .eq))) :
    ∃ t, exec (op.instr c) s = .next t ∧ t.mem.wf
      ∧ BigintDone s t (decide (op ≠ .eq)) (bigintResultIn op c s).1.toNat (bigintResultIn op c s).2
          (bigintDraws op) := by
  refine ⟨_, exec_of_ready ((commandReady_bigint op c s).mpr h), ?_⟩
  rw [commandEffect_bigint, State.useDraws_mem]
  exact ⟨bigintEffect_wf hp hm h, BigintDone.useDraws (bigintEffect_done hp hm h) _⟩

/-- The destination afterwards. -/
theorem BigintDone.operandA (h : BigintDone s t writes res bit drawn) :
    t.operandA = if writes then res else s.operandA := by
  obtain ⟨hstate, hdest, -⟩ := h
  rw [← hdest, State.operandA, hstate]

theorem BigintDone.ret (h : BigintDone s t writes res bit drawn) : t.ret = if bit then 1 else 0 := by
  rw [h.1]

/-- The operand `b` is left as it was: it shares no byte with the destination (R110), and the scratch slot is written
only where `b` is in ROM, which the slot is not (R8, R111). -/
theorem BigintDone.operandB (h : BigintDone s t writes res bit drawn) (hp : paramsWf s.params = true)
    (hready : BigintReady s writes) : t.operandB = s.operandB := by
  obtain ⟨hstate, -, -, hframe⟩ := h
  obtain ⟨-, ha, hb, -, hne, -⟩ := hready
  obtain ⟨hrom, -, hslot, -⟩ := (paramsWf_iff s.params).mp hp
  have hne' : s.a.toNat ≠ s.b.toNat := mt BitVec.eq_of_toNat_eq hne
  rw [State.operandB, show t.b = s.b by rw [hstate]]
  refine Mem.readNat_congr fun x hx hx' => hframe x (fun ⟨_, hd, hd'⟩ => ?_) fun ⟨hlt, hd, hd'⟩ => ?_
  · omega
  · have hlt' : s.b.toNat < s.params.romBound.toNat := hlt
    omega

/-- A BIGINT command moves none of what the conditions of the next one read. -/
theorem BigintDone.ready (h : BigintDone s t writes res bit drawn) (hready : BigintReady s writes) :
    BigintReady t writes := by
  rw [h.1]
  exact hready

theorem BigintDone.params (h : BigintDone s t writes res bit drawn) : t.params = s.params := by
  rw [h.1]

end

/-! ### The operations on 256-bit values (R114 to R124) -/

section
variable (x y : U256) (c : Bool)

theorem toNat_opAdd : (opAdd x y c).1.toNat = (x.toNat + y.toNat + c.toNat) % 2 ^ 256 :=
  BitVec.toNat_ofNat ..

theorem toNat_opMemcpy : (opMemcpy y c).1.toNat = (y.toNat + c.toNat) % 2 ^ 256 :=
  BitVec.toNat_ofNat ..

theorem toNat_opMullo (drawn : Bool) : (opMullo x y drawn).1.toNat = x.toNat * y.toNat % 2 ^ 256 :=
  BitVec.toNat_ofNat ..

/-- The difference of two 256-bit values is that of the integers modulo `2^256` (R115). -/
theorem toNat_difference :
    (difference x y c).1.toNat = (((x.toNat : Int) - y.toNat - c.toNat) % 2 ^ 256).toNat :=
  BitVec.toNat_ofInt ..

/-- `b + c` overflows in one case alone (R117). -/
theorem opMemcpy_bit : (opMemcpy y c).2 = decide (y.toNat + c.toNat = 2 ^ 256) := by
  have hy := y.isLt
  have hc := c.toNat_le
  exact decide_eq_decide.mpr (by omega)

/-- Two 256-bit values are equal exactly when their integers are (R120). -/
theorem opEq_bit : (opEq x y).2 = decide (x.toNat = y.toNat) := by
  rw [opEq, decide_eq_decide]
  exact BitVec.toNat_inj.symm

/-- The high half of a product fits in 256 bits (R119). -/
theorem toNat_opMulhi : (opMulhi x y).1.toNat = x.toNat * y.toNat / 2 ^ 256 := by
  have hlt : x.toNat * y.toNat < 2 ^ 256 * 2 ^ 256 := Nat.mul_lt_mul'' x.isLt y.isLt
  rw [opMulhi, BitVec.toNat_ofNat]
  exact Nat.mod_eq_of_lt (Nat.div_lt_of_lt_mul hlt)

/-- Sub undoes Add, and its borrow-out is Add's carry-out (R121). -/
theorem opSub_opAdd : opSub (opAdd x y c).1 y c = (x, (opAdd x y c).2) := by
  have hx := x.isLt
  have hy := y.isLt
  have hc := c.toNat_le
  refine Prod.ext (BitVec.eq_of_toNat_eq ?_) (decide_eq_decide.mpr ?_)
  · show (difference (opAdd x y c).1 y c).1.toNat = x.toNat
    rw [toNat_difference, toNat_opAdd]
    omega
  · rw [toNat_opAdd]
    omega

/-- MulLow and MulHigh are the two halves of the exact product (R122). -/
theorem opMullo_add_opMulhi (drawn : Bool) :
    (opMullo x y drawn).1.toNat + 2 ^ 256 * (opMulhi x y).1.toNat = x.toNat * y.toNat := by
  rw [toNat_opMulhi, toNat_opMullo]
  exact Nat.mod_add_div ..

end

/-! ### The results of the BIGINT commands (R114 to R123) -/

/-- A ready BIGINT command completes with the values that its result and its bit are equal to. -/
theorem exec_bigint_of_result {s : State} (op : BigintOp) (c : Bool) (hp : paramsWf s.params = true) (hm : s.mem.wf)
    (h : BigintReady s (decide (op ≠ .eq))) {res : Nat} {bit : Bool} (hres : (bigintResultIn op c s).1.toNat = res)
    (hbit : (bigintResultIn op c s).2 = bit) :
    ∃ t, exec (op.instr c) s = .next t ∧ BigintDone s t (decide (op ≠ .eq)) res bit (bigintDraws op) := by
  obtain ⟨t, hrun, -, hdone⟩ := exec_bigint op c hp hm h
  exact ⟨t, hrun, hres ▸ hbit ▸ hdone⟩

/-- Settles O46: the sum and the carry of the integers. -/
theorem bigintAddResult : Obligations.BigintAddResult := by
  intro s c hp hm h
  rw [← s.toNat_valueA, ← s.toNat_valueB]
  exact exec_bigint_of_result .add c hp hm h (toNat_opAdd ..) rfl

/-- Settles O47: the difference and the borrow of the integers. -/
theorem bigintSubResult : Obligations.BigintSubResult := by
  intro s c hp hm h
  rw [← s.toNat_valueA, ← s.toNat_valueB]
  exact exec_bigint_of_result .sub c hp hm h (toNat_difference ..) rfl

/-- Settles O48: the difference of O47 with the operands exchanged. -/
theorem bigintSubnegResult : Obligations.BigintSubnegResult := by
  intro s c hp hm h
  rw [← s.toNat_valueA, ← s.toNat_valueB]
  exact exec_bigint_of_result .subneg c hp hm h (toNat_difference ..) rfl

/-- Settles O49: `b` plus the carry-in, which overflows in one case alone. -/
theorem bigintMemcpyResult : Obligations.BigintMemcpyResult := by
  intro s c hp hm h
  rw [← s.toNat_valueB]
  exact exec_bigint_of_result .memcpy c hp hm h (toNat_opMemcpy ..) (opMemcpy_bit ..)

/-- Settles O50: the low half of the product; the bit is the draw that the state has come to. -/
theorem bigintMulloResult : Obligations.BigintMulloResult := by
  intro s c hp hm h
  rw [← s.toNat_valueA, ← s.toNat_valueB]
  exact exec_bigint_of_result .mullo c hp hm h (toNat_opMullo ..) rfl

/-- Settles O51: the high half of the product, which fits. -/
theorem bigintMulhiResult : Obligations.BigintMulhiResult := by
  intro s c hp hm h
  rw [← s.toNat_valueA, ← s.toNat_valueB]
  exact exec_bigint_of_result .mulhi c hp hm h (toNat_opMulhi ..) rfl

/-- Settles O52: the bit compares the integers, and the destination is not written. -/
theorem bigintEqResult : Obligations.BigintEqResult := by
  intro s c hp hm h
  rw [← s.toNat_valueA, ← s.toNat_valueB]
  exact exec_bigint_of_result .eq c hp hm h rfl (opEq_bit ..)

/-- After a BIGINT command that writes its destination, the destination holds the result. -/
theorem BigintDone.valueA {s t : State} {res : U256} {bit : Bool} {drawn : Nat}
    (h : BigintDone s t true res.toNat bit drawn) : t.valueA = res :=
  BitVec.eq_of_toNat_eq (t.toNat_valueA.trans h.operandA)

/-- Settles O53: Sub finds its operands ready and `b` unchanged, and undoes the Add. -/
theorem addThenSubRestores : Obligations.AddThenSubRestores := by
  intro s c hp hm h
  obtain ⟨t, hadd, hmt, htDone⟩ := exec_bigint .add c hp hm h
  have hpt : paramsWf t.params = true := htDone.params ▸ hp
  have hB : t.operandB = s.operandB := htDone.operandB hp h
  obtain ⟨u, hsub, -, huDone⟩ := exec_bigint .sub c hpt hmt (htDone.ready h)
  have hresult : bigintResultIn .sub c t = (s.valueA, (bigintResultIn .add c s).2) := by
    have hvalueB : t.valueB = s.valueB := congrArg (BitVec.ofNat 256) hB
    have hvalueA : t.valueA = (opAdd s.valueA s.valueB c).1 := htDone.valueA
    show opSub t.valueA t.valueB c = _
    rw [hvalueA, hvalueB]
    exact opSub_opAdd ..
  rw [hresult] at huDone
  refine ⟨t, u, hadd, hsub, ?_, (huDone.operandB hpt (htDone.ready h)).trans hB, huDone.ret.trans htDone.ret.symm⟩
  exact huDone.operandA.trans s.toNat_valueA

/-- Settles O54: each of the two commands leaves its half of the product. -/
theorem productHalves : Obligations.ProductHalves := by
  intro s c c' hp hm h
  obtain ⟨lo, hlo, -, hloDone⟩ := exec_bigint .mullo c hp hm h
  obtain ⟨hi, hhi, -, hhiDone⟩ := exec_bigint .mulhi c' hp hm h
  have hlow : lo.valueA = (opMullo s.valueA s.valueB (Config.drawBit s.draws)).1 := hloDone.valueA
  have hhigh : hi.valueA = (opMulhi s.valueA s.valueB).1 := hhiDone.valueA
  refine ⟨lo, hi, hlo, hhi, ?_⟩
  rw [← lo.toNat_valueA, ← hi.toNat_valueA, ← s.toNat_valueA, ← s.toNat_valueB, hlow, hhigh]
  exact opMullo_add_opMulhi ..

/-- The result depends on the two operands and on the number of draws alone (R124). -/
theorem bigintResultIn_congr {s s' : State} (op : BigintOp) (c : Bool) (hd : s'.draws = s.draws)
    (hA : s'.operandA = s.operandA) (hB : s'.operandB = s.operandB) :
    bigintResultIn op c s' = bigintResultIn op c s := by
  simp only [bigintResultIn, State.valueA, State.valueB, hd, hA, hB]

/-- Settles O55: with or without the copy path the operation gets the two operand values, which are the same. -/
theorem romOperandSameResult : Obligations.RomOperandSameResult := by
  intro op c s s' hp hm hm' hparams _ hd h h' _ _ hA hB
  obtain ⟨t, hrun, -, hdone⟩ := exec_bigint op c hp hm h
  obtain ⟨t', hrun', -, hdone'⟩ := exec_bigint op c (hparams ▸ hp) hm' h'
  rw [bigintResultIn_congr op c hd hA hB] at hdone'
  refine ⟨t, t', hrun, hrun', ?_, hdone'.ret.trans hdone.ret.symm⟩
  rw [hdone'.operandA, hdone.operandA, hA]

end Sys2Proof.Machine

namespace Sys2Proof.Machine

/-! ### The block between accesses (R138) -/

/-- Settles O14: on well-formed parameters the next access alone decides, and there is none. -/
theorem idleBlockKeepsState : Obligations.IdleBlockKeepsState := by
  intro s hp hq
  rw [step, hostStep, if_pos hp, hq]

/-! ### Raising and keeping a fault (R127, R129) -/

section
variable {s t : State}

/-- What a command can do to the fault fields: raise a fault and change nothing else, or leave them as they are. -/
theorem exec_raises_or_keepsFault {i : Instr} (h : exec i s = .next t) :
    (∃ f info, t = s.raise f info) ∨ t.fault = s.fault ∧ t.faultInfo = s.faultInfo := by
  rcases exec_cases h with ⟨c, -, -, rfl⟩ | ⟨-, rfl⟩
  · exact .inl ⟨c.code, c.info, rfl⟩
  · exact .inr (commandEffect_fault i s)

/-- What a write to `CMD` can do to the fault fields: the same. -/
theorem issueCommand_raises_or_keepsFault {w : Word} (h : issueCommand w s = .next t) :
    (∃ f info, t = s.raise f info) ∨ t.fault = s.fault ∧ t.faultInfo = s.faultInfo := by
  rcases issueCommand_cases h with ⟨-, rfl⟩ | ⟨-, ⟨-, -, rfl⟩ | ⟨i, -, hrun⟩⟩
  · exact .inr ⟨rfl, rfl⟩
  · exact .inl ⟨.illegalCommand, w, rfl⟩
  · exact exec_raises_or_keepsFault hrun

/-- On a faulted block no write to the window changes the fault fields (R20, R128). -/
theorem windowStore_keepsFault {offset v : Word} (hf : s.fault ≠ none) (h : windowStore offset v s = .next t) :
    t.fault = s.fault ∧ t.faultInfo = s.faultInfo := by
  rcases windowStore_cases h with ⟨-, hc⟩ | ⟨-, rfl⟩ | ⟨-, rfl⟩ | ⟨-, rfl⟩ | rfl
  · rw [issueCommand_of_fault hf] at hc
    cases hc
    exact ⟨rfl, rfl⟩
  all_goals exact ⟨rfl, rfl⟩

/-- On a faulted block no access of the host but reset changes the fault fields (R129). -/
theorem hostAccess_keepsFault {act : HostAction} (hf : s.fault ≠ none) (h : hostAccess act s = .next t) :
    (t.fault = s.fault ∧ t.faultInfo = s.faultInfo) ∨ act = .reset := by
  rcases hostAccess_cases h with ⟨offset, v, hw⟩ | ⟨d, rfl⟩ | ⟨addr, data, -, -, rfl⟩ | ⟨hreset, -⟩
  · exact .inl (windowStore_keepsFault hf hw)
  · exact .inl ⟨rfl, rfl⟩
  · exact .inl ⟨rfl, rfl⟩
  · exact .inr hreset

end

/-- The STATUS word of a block that has raised a fault shows it (R25, R127). -/
theorem status_raise (s : State) (f : FaultCode) (info : Word) :
    (s.raise f info).status.extractLsb' 0 1 = 1 ∧ (s.raise f info).status.extractLsb' 4 4 = faultNumber f := by
  obtain ⟨hfaulted, -, hcode, -⟩ := status_fields (s.raise f info)
  exact ⟨hfaulted, hcode⟩

/-- Settles O18: a step is idle or takes one host access, and none but reset changes the fault fields of a faulted
block. -/
theorem onlyResetClearsFault : Obligations.OnlyResetClearsFault := by
  intro s t f hf hstep
  have hfaulted : s.fault ≠ none := by simp [hf]
  obtain ⟨-, ⟨-, rfl⟩ | ⟨act, rest, hq, hact⟩⟩ := step_cases hstep
  · exact .inl ⟨hf, rfl⟩
  · rcases hostAccess_keepsFault (s := s.setPending rest) hfaulted hact with ⟨hfault, hinfo⟩ | rfl
    · exact .inl ⟨hfault.trans hf, hinfo⟩
    · exact .inr ⟨rest, hq⟩

/-- Settles O22: a command that does not raise a fault leaves an unfaulted block unfaulted. -/
theorem faultIsPrecise : Obligations.FaultIsPrecise := by
  intro s t w hf hrun hraised
  rcases issueCommand_raises_or_keepsFault hrun with ⟨f, info, rfl⟩ | ⟨hkept, -⟩
  · obtain ⟨hfaulted, hcode⟩ := status_raise s f info
    exact ⟨f, info, rfl, hfaulted, hcode, rfl⟩
  · exact absurd (hkept.trans hf) hraised

end Sys2Proof.Machine

namespace Sys2Proof.Machine

/-! ### The parameters never change (R141) -/

section
variable {s t : State}

/-- A fault keeps the parameters (R127), and so does the effect of every unit. -/
theorem exec_params {i : Instr} (h : exec i s = .next t) : t.params = s.params := by
  obtain ⟨-, -, -, -, -, -, -, -, -, -, -, hparams, -⟩ := commandsKeepOtherRegisters i s t h
  exact hparams

theorem issueCommand_params {w : Word} (h : issueCommand w s = .next t) : t.params = s.params := by
  rcases issueCommand_cases h with ⟨-, rfl⟩ | ⟨-, ⟨-, -, rfl⟩ | ⟨i, -, hrun⟩⟩
  · rfl
  · exact State.raise_params ..
  · exact exec_params hrun

theorem windowStore_params {offset v : Word} (h : windowStore offset v s = .next t) : t.params = s.params := by
  rcases windowStore_cases h with ⟨-, hc⟩ | ⟨-, rfl⟩ | ⟨-, rfl⟩ | ⟨-, rfl⟩ | rfl
  · exact issueCommand_params hc
  · exact State.setA_params ..
  · exact State.setB_params ..
  · exact State.setLen_params ..
  · rfl

/-- No access of the host reaches the parameters, reset among them (R139). -/
theorem hostAccess_params {act : HostAction} (h : hostAccess act s = .next t) : t.params = s.params := by
  rcases hostAccess_cases h with ⟨offset, v, hw⟩ | ⟨d, rfl⟩ | ⟨addr, data, -, -, rfl⟩ | ⟨-, rfl⟩
  · exact windowStore_params hw
  · exact State.setHostData_params ..
  · rw [State.setMem_params, taintBy, State.setSeq_params]
  · exact State.resetBlock_params ..

end

/-- Settles O19: a step is idle or takes one host access, and no host access changes the parameters. -/
theorem stepKeepsParameters : Obligations.StepKeepsParameters := by
  intro s t hstep
  obtain ⟨-, ⟨-, rfl⟩ | ⟨act, rest, -, hact⟩⟩ := step_cases hstep
  · rfl
  · exact hostAccess_params (s := s.setPending rest) hact

end Sys2Proof.Machine
